-- ==== Sys2Proof/Word.lean ====
section
/-! DEFINITION. Word.lean: the widths of the block's values (00_scope.md R6, R7, R10; 10_state.md Table S1). -/

namespace Sys2Proof

/-- An octet, the unit of the source and of the sink: 8 bits (R6, R10). -/
abbrev Octet := BitVec 8

/-- A command word: 16 bits (R7 `CMD_W`, R80). -/
abbrev CmdWord := BitVec 16

/-- Response data: 32 bits, the source's "u32" (R7 `DATA_W`, R87). -/
abbrev U32 := BitVec 32

/-- A cursor register: 4 bits, "natural in [0, 8], held in 4 bits" (R10, Table S1). -/
abbrev Cursor := BitVec 4

/-- `mask(n) = 2^n − 1` (R8). -/
def mask (n : Nat) : Nat := 2 ^ n - 1

end Sys2Proof
end

