-- ==== Sys2Proof/Syntax.lean ====
section
/-! DEFINITION. Syntax.lean: the four commands (30_encoding.md R80 to R83, opcode_table.json), their operands as wide as
their fields. -/

namespace Sys2Proof

/-- A recognised command: one constructor per row of the opcode table, each operand as its field gives it (R82),
so that an operand out of range stays expressible and is answered by name (R85). -/
inductive Instr where
  /-- `RDU n`: read the next n bits of the source (R130). -/
  | rdu (n : BitVec 6)
  /-- `WRU n, v`: append the n-bit number v to the sink (R160). -/
  | wru (n : BitVec 4) (v : BitVec 8)
  /-- `FIN`: check that the writer is at a byte boundary (R164). -/
  | fin
  /-- `GEO N`: the word geometry of an alphabet of N characters (R110). -/
  | geo (N : BitVec 8)
  deriving DecidableEq, Repr

end Sys2Proof
end

