-- ==== Sys2Proof/WellFormed.lean ====
section
/-! DEFINITION. WellFormed.lean: the operand ranges the source states as preconditions (30_encoding.md R82, R85). -/

namespace Sys2Proof

/-- The operands are within the stated ranges: RDU 1 ≤ n ≤ 32; WRU 1 ≤ n ≤ 8 and v < 2^n; FIN and GEO always (R85). -/
def Instr.wellFormed : Instr → Bool
  | .rdu n => decide (1 ≤ n.toNat) && decide (n.toNat ≤ 32)
  | .wru n v => decide (1 ≤ n.toNat) && decide (n.toNat ≤ 8) && decide (v.toNat < 2 ^ n.toNat)
  | .fin => true
  | .geo _ => true

end Sys2Proof
end

