-- ==== Sys2Proof/Decode.lean ====
section
/-! DEFINITION. Decode.lean: recognising, decoding and encoding command words (30_encoding.md R81 to R85, R92). -/

namespace Sys2Proof

/-- Why a word is not a legal command: it matches no row (R84), or it matches one with an operand out of range (R85). -/
inductive DecodeError where
  | illegalCommand
  | illegalOperand
  deriving DecidableEq, Repr

/-- `cmd[15:12]`, the opcode field of every format (R81). -/
def opField (w : CmdWord) : BitVec 4 := w.extractLsb' 12 4

/-- `cmd[11:8]`: WRU's n, and `zero` in the other formats (R81). -/
def highField (w : CmdWord) : BitVec 4 := w.extractLsb' 8 4

/-- `cmd[7:6]`: `zero` in format R (R81). -/
def midField (w : CmdWord) : BitVec 2 := w.extractLsb' 6 2

/-- `cmd[5:0]`: RDU's n (R82). -/
def lowField (w : CmdWord) : BitVec 6 := w.extractLsb' 0 6

/-- `cmd[7:0]`: WRU's v and GEO's N (R82). -/
def byteField (w : CmdWord) : BitVec 8 := w.extractLsb' 0 8

/-- Check 1 of 60_exceptions.md R234: the row of the opcode table a word matches, with its operand fields read; `none` for a
word that matches no row, including one whose `zero` field is not zero (R81, R83, R84). -/
def recognise (w : CmdWord) : Option Instr :=
  if opField w = 1 then
    if highField w = 0 ∧ midField w = 0 then some (.rdu (lowField w)) else none
  else if opField w = 2 then some (.wru (highField w) (byteField w))
  else if opField w = 3 then
    if highField w = 0 ∧ byteField w = 0 then some .fin else none
  else if opField w = 4 then
    if highField w = 0 then some (.geo (byteField w)) else none
  else none

/-- Decoding, "total on the 65536 words" and a function of "the word alone" (R92): checks 1 and 2 of R234. -/
def decode (w : CmdWord) : Except DecodeError Instr :=
  match recognise w with
  | none => .error .illegalCommand
  | some i => if i.wellFormed then .ok i else .error .illegalOperand

/-- The word of a command: opcode, then the fields of its format from bit 11 down (R81, Table E1). -/
def encode : Instr → CmdWord
  | .rdu n => (0x1 : BitVec 4) ++ (0 : BitVec 6) ++ n
  | .wru n v => (0x2 : BitVec 4) ++ n ++ v
  | .fin => (0x3 : BitVec 4) ++ (0 : BitVec 12)
  | .geo N => (0x4 : BitVec 4) ++ (0 : BitVec 4) ++ N

/-- The command word whose bits are the low `nbits` bits of `w`, the rest zero; `none` if that does not fit the 16 bits
every command has (R80). A command word is presented whole, so there is no byte order to choose (log entry 17). -/
def tableWord (nbits w : Nat) : Option CmdWord :=
  if w % 2 ^ nbits < 2 ^ 16 then some (BitVec.ofNat 16 (w % 2 ^ nbits)) else none

/-- The command the decoder reads from a word of the opcode table. -/
def decodeTableWord (nbits w : Nat) : Option Instr :=
  (tableWord nbits w).bind recognise

end Sys2Proof
end

