-- ==== Sys2Proof/Config.lean ====
section
/-! DEFINITION. Config.lean: what the spec leaves to the platform: the default of the open parameter `IO_FAULTS`,
and the one free value. -/

namespace Sys2Proof

/-- The default of the open parameter `IO_FAULTS` (00_scope.md R7, 92_eei_decisions.md D12). The parameter itself is a field of
the environment, so that statements hold for both of its values (log entry 5). -/
def Config.ioFaultsDefault : Bool := false

/-- FREE VALUE (log entry 6; DESIGN CHOICE, safe). The octets of an infinite source after the octets State lists: 10_state.md R32
lets the source be infinite and says nothing of its octets. Applied to a counter in State that advances at each
use, so that no two draws are known to be equal. It has no body: nothing can be proved of its values. -/
opaque Config.endlessOctet : Nat → Octet

end Sys2Proof
end

