-- ==== Sys2Proof/Machine/State.lean ====
section
/-! DEFINITION. State.lean: the block's six registers (10_state.md R20), the environment (R32), the command port and the
responses; the outcomes other than a next state; the state after reset (R35, R271). -/

namespace Sys2Proof.Machine

/-- `br.fault` (R27): 2 bits, codes 0, 1, 2; code 3 is never held, so the type has no value for it. -/
inductive BrFault where
  | none
  | unexpectedEndOfStream
  | io
  deriving DecidableEq, Repr

/-- `bw.fault` (R28): 2 bits, codes 0, 1, 2; code 3 is never held, so the type has no value for it. -/
inductive BwFault where
  | none
  | unalignedEnd
  | io
  deriving DecidableEq, Repr

/-- The nine statuses of Table E2 (30_encoding.md R88); codes 9 to 15 are never produced. -/
inductive Status where
  | ok
  | endOfStream
  | unexpectedEndOfStream
  | unalignedEnd
  | invalidAlphabet
  | io
  | illegalCommand
  | illegalOperand
  | unitFaulted
  deriving DecidableEq, Repr

/-- The three units (00_scope.md R2). -/
inductive UnitName where
  | br
  | bw
  | geo
  deriving DecidableEq, Repr

/-- A response: a status and 32 bits of data (R87). -/
structure Response where
  status : Status
  data : U32
  deriving DecidableEq, Repr

/-- BR's registers (Table S1). -/
structure BitReader where
  /-- The whole octet most recently fetched (R21). -/
  buf : Octet
  /-- How many low-order bits of `buf` remain unconsumed (R22). -/
  bitsLeft : Cursor
  /-- The sticky fault register (R27). -/
  fault : BrFault
  deriving DecidableEq, Repr

/-- BW's registers (Table S1). -/
structure BitWriter where
  /-- The accumulator, filled from the top (R24). -/
  acc : Octet
  /-- How many bits of `acc` are filled (R25). -/
  bitsUsed : Cursor
  /-- The sticky fault register (R28). -/
  fault : BwFault
  deriving DecidableEq, Repr

/-- The octet source S with its position (R32). -/
structure Source where
  /-- The listed octets of S: all of it if the source is finite, a beginning of it if it is endless. -/
  octets : List Octet
  /-- S is infinite: after the listed octets come octets nothing is known of (log entry 6). -/
  endless : Bool
  /-- The number of octets already fetched. -/
  sp : Nat
  /-- The model's own: how many unlisted octets have been drawn so far (log entry 6). -/
  fresh : Nat
  deriving DecidableEq, Repr

/-- What is bound to the block and is not the block's (R32), with the open parameter (R7). -/
structure Env where
  source : Source
  /-- K, the octets emitted so far, oldest first. -/
  sink : List Octet
  /-- The open parameter `IO_FAULTS`. -/
  ioFaults : Bool
  /-- The model's own: whether each coming `SrcFetch` answers `Fail`; no entry means it does not (log entry 5). -/
  srcDraws : List Bool
  /-- The model's own: whether each coming `SnkEmit` answers `Fail`; no entry means it does not (log entry 5). -/
  snkDraws : List Bool
  deriving DecidableEq, Repr

/-- One act of the host (43_host_codec.md R190, 70_reset_and_hazards.md R270, R273). -/
inductive HostEvent where
  /-- Present a command word and wait for its response (R92). -/
  | command (w : CmdWord)
  /-- Apply reset, between commands (R270). -/
  | reset
  /-- Bind a source positioned at its first octet (R273). -/
  | bindSource (octets : List Octet) (endless : Bool)
  /-- Bind an empty sink (R273). -/
  | bindSink
  /-- Against R281: apply reset between presenting `w` and its response. -/
  | resetDuringCommand (w : CmdWord)
  /-- Against R275: present `w2` before the response to `w1`. -/
  | secondCommand (w1 w2 : CmdWord)
  deriving DecidableEq, Repr

/-- The machine: the six registers, the environment, the host's acts still to come, the responses given. -/
structure State where
  br : BitReader
  bw : BitWriter
  env : Env
  /-- The host's acts not yet taken, oldest first (the model's own, log entries 1 and 15). -/
  port : List HostEvent
  /-- The responses delivered so far, oldest first (the model's own, log entry 10). -/
  responses : List Response
  deriving DecidableEq, Repr

/-- The reasons the machine stops with a fault: none. Every failure of the block is a status in a response, after which it goes
on (60_exceptions.md R230, R231). Nobody raises a fault (log entry 11; safe). -/
inductive Fault where
  deriving DecidableEq, Repr

/-- The reasons the model gives a step no meaning. -/
inductive Refusal where
  /-- Raised by an arm of `exec` that has no meaning yet; no arm raises it now (safe). -/
  | notModelled (mnemonic : String)
  /-- Raised by `step` when the host resets the block during a command: "a model should refuse such a run"
  (R281; log entry 9; safe). -/
  | resetDuringCommand
  /-- Raised by `step` when the host presents a second command before the response to the first: refused
  (R275, 93_implementation_defined.md U12; log entry 9; safe). -/
  | secondCommandBeforeResponse
  deriving DecidableEq, Repr

/-- BR after reset (R35, R271). -/
def BitReader.reset : BitReader := { buf := 0x00, bitsLeft := 0, fault := .none }

/-- BW after reset (R35, R271). -/
def BitWriter.reset : BitWriter := { acc := 0x00, bitsUsed := 0, fault := .none }

/-- The environment the model starts in: an empty finite source, an empty sink, `IO_FAULTS` at its default (log entries
5 and 7; DESIGN CHOICE: reset does not touch the environment, R272). -/
def Env.initial : Env :=
  { source := { octets := [], endless := false, sp := 0, fresh := 0 }
    sink := []
    ioFaults := Config.ioFaultsDefault
    srcDraws := []
    snkDraws := [] }

/-- The machine right after a power-on reset (R270, R271): the six registers as R35 says, nothing presented yet. -/
def State.reset : State :=
  { br := BitReader.reset, bw := BitWriter.reset, env := Env.initial, port := [], responses := [] }

end Sys2Proof.Machine
end

