-- ==== Sys2Proof/Machine/Flags.lean ====
section
/-! DEFINITION. Flags.lean: the block has no flags or condition codes (10_state.md R31); what stands in their place are the
status of a response and the two fault registers. Their codes, and which status sets which fault register. -/

namespace Sys2Proof.Machine

/-- The 4-bit code of a status (30_encoding.md R88, Table E2). -/
def statusCode : Status → BitVec 4
  | .ok => 0
  | .endOfStream => 1
  | .unexpectedEndOfStream => 2
  | .unalignedEnd => 3
  | .invalidAlphabet => 4
  | .io => 5
  | .illegalCommand => 6
  | .illegalOperand => 7
  | .unitFaulted => 8

/-- The 2-bit content of `br.fault` (Table S1). -/
def brFaultCode : BrFault → BitVec 2
  | .none => 0
  | .unexpectedEndOfStream => 1
  | .io => 2

/-- The 2-bit content of `bw.fault` (Table S1). -/
def bwFaultCode : BwFault → BitVec 2
  | .none => 0
  | .unalignedEnd => 1
  | .io => 2

/-- The 36-bit response word `rsp[35:0]`: status in bits 35 to 32, data below (R87). -/
def responseWord (r : Response) : BitVec 36 := statusCode r.status ++ r.data

/-- Check 3 of 60_exceptions.md R234: the unit's fault register is not `None`; GEO has none (R238). -/
def unitFaulted (u : UnitName) (s : State) : Bool :=
  match u with
  | .br => s.br.fault != .none
  | .bw => s.bw.fault != .none
  | .geo => false

/-- The fault register a failing status sets, in the unit that raised it; the other statuses set none
(60_exceptions.md R235(b), Table X1). -/
def recordFault (u : UnitName) (st : Status) (s : State) : State :=
  match u, st with
  | .br, .unexpectedEndOfStream => { s with br.fault := .unexpectedEndOfStream }
  | .br, .io => { s with br.fault := .io }
  | .bw, .unalignedEnd => { s with bw.fault := .unalignedEnd }
  | .bw, .io => { s with bw.fault := .io }
  | _, _ => s

end Sys2Proof.Machine
end

