-- ==== Sys2Proof/Machine/Operands.lean ====
section
/-! DEFINITION. Operands.lean: the operand checks (30_encoding.md R85) and the bit fields the commands cut and join
(00_scope.md R8, R11). -/

namespace Sys2Proof.Machine

/-- RDU's width is legal: 1 ≤ n ≤ 32 (41_bit_reader.md R141). -/
def rduOperandLegal (n : BitVec 6) : Bool :=
  decide (1 ≤ n.toNat) && decide (n.toNat ≤ 32)

/-- WRU's operands are legal: 1 ≤ n ≤ 8 and v < 2^n (42_bit_writer.md R163). -/
def wruOperandLegal (n : BitVec 4) (v : BitVec 8) : Bool :=
  decide (1 ≤ n.toNat) && decide (n.toNat ≤ 8) && decide (v.toNat < 2 ^ n.toNat)

/-- `buf[left−1 : left−n]`: of the `left` low-order bits of an octet, the top n (R8, R131). -/
def topUnconsumed (buf : Octet) (left n : Nat) : Nat :=
  (buf.toNat >>> (left - n)) % 2 ^ n

/-- `acc` with the n bits of `v` placed right below its top `8 − free` bits: `acc | (v << (free − n))`
(R160, R161: the value fits). -/
def packBelow (acc : Octet) (free n v : Nat) : Octet :=
  BitVec.ofNat 8 (acc.toNat ||| (v <<< (free - n)))

/-- The octet that a value of n ≥ free bits completes: `acc | (v >> (n − free))` (R160: `acc | v` when n = free). -/
def completedOctet (acc : Octet) (free n v : Nat) : Octet :=
  BitVec.ofNat 8 (acc.toNat ||| (v >>> (n - free)))

/-- The fresh accumulator that holds the low r bits of `v` at its top: `(v & mask(r)) << (8 − r)` (R160). -/
def leftover (r v : Nat) : Octet :=
  BitVec.ofNat 8 ((v &&& mask r) <<< (8 - r))

end Sys2Proof.Machine
end

