-- ==== Sys2Proof/Machine/Ops.lean ====
section
/-! DEFINITION. Ops.lean: the named operations every command is written with: responding, failing (the block's whole "trap
entry", 60_exceptions.md R235), the checks before execution (R234), the two environment primitives (20_memory.md R51, R52),
reset (70_reset_and_hazards.md R271) and the host's bindings (R273). -/

namespace Sys2Proof.Machine

/-- `respond(status, data)`: the command's one response (00_scope.md R9, 30_encoding.md R87). -/
def respond (st : Status) (data : U32) (s : State) : State :=
  { s with responses := s.responses ++ [{ status := st, data := data }] }

/-- Taking a failure, the block's "trap entry" (R235): the unit's fault register is set where the status sets one, and the
response carries the status with data 0. Nothing is saved and control goes nowhere. -/
def raise (u : UnitName) (st : Status) (s : State) : State :=
  respond st 0 (recordFault u st s)

/-- The answer to a word that spells no command (30_encoding.md R84). -/
def answerIllegalCommand (s : State) : State :=
  respond .illegalCommand 0 s

/-- Checks 2 and 3 of R234, then execution: an operand out of range is answered before the fault register is looked at, a
faulted unit before anything is executed, and neither changes anything (R85, R238). -/
def checked (u : UnitName) (operandsLegal : Bool) (run : State → State) (s : State) : State :=
  if operandsLegal = false then raise u .illegalOperand s
  else if unitFaulted u s then raise u .unitFaulted s
  else run s

/-- What a fetch answers (R9, R51). -/
inductive SrcAnswer where
  | octet (b : Octet)
  | endOfSource
  | fail
  deriving DecidableEq, Repr

/-- What an emission answers (R9, R52). -/
inductive SnkAnswer where
  | ok
  | fail
  deriving DecidableEq, Repr

/-- The next octet of a source and the source after it; `none` if it has ended (R51). After the listed octets of an
endless source comes the free value (log entry 6). -/
def nextOctet (src : Source) : Option (Octet × Source) :=
  match src.octets[src.sp]? with
  | some b => some (b, { src with sp := src.sp + 1 })
  | none =>
    if src.endless then
      some (Config.endlessOctet src.fresh, { src with sp := src.sp + 1, fresh := src.fresh + 1 })
    else none

/-- Whether a stream primitive answers `Fail`, and the draws left: never if `IO_FAULTS` is false, otherwise as the next draw
says (R51, R52, 60_exceptions.md R242; log entry 5). -/
def drawFail (ioFaults : Bool) (draws : List Bool) : Bool × List Bool :=
  if ioFaults then (draws.headD false, draws.tail) else (false, draws)

/-- `SrcFetch()` (R51): `Fail` and `End` change nothing of the source; an octet advances it. -/
def srcFetch (s : State) : SrcAnswer × State :=
  let d := drawFail s.env.ioFaults s.env.srcDraws
  let s1 : State := { s with env.srcDraws := d.2 }
  if d.1 then (.fail, s1)
  else
    match nextOctet s.env.source with
    | some (b, src) => (.octet b, { s1 with env.source := src })
    | none => (.endOfSource, s1)

/-- `SnkEmit(b)` (R52): `Ok` appends b to the sink, `Fail` leaves it unchanged. The sink never refuses for room. -/
def snkEmit (b : Octet) (s : State) : SnkAnswer × State :=
  let d := drawFail s.env.ioFaults s.env.snkDraws
  let s1 : State := { s with env.snkDraws := d.2 }
  if d.1 then (.fail, s1) else (.ok, { s1 with env.sink := s.env.sink ++ [b] })

/-- `RESET` (R271, R272): the six registers take their reset values, both units together; the environment is not touched and
nothing is answered. The only way out of a unit fault (60_exceptions.md R237). -/
def applyReset (s : State) : State :=
  { s with br := BitReader.reset, bw := BitWriter.reset }

/-- The host binds a source positioned at its first octet (R273; log entry 8). -/
def bindSource (octets : List Octet) (endless : Bool) (s : State) : State :=
  { s with env.source := { octets := octets, endless := endless, sp := 0, fresh := s.env.source.fresh } }

/-- The host binds an empty sink (R273; log entry 8). -/
def bindSink (s : State) : State :=
  { s with env.sink := [] }

end Sys2Proof.Machine
end

