-- ==== Sys2Proof/Machine/Geometry.lean ====
section
/-! DEFINITION. Geometry.lean: GEO, the word-geometry function (40_geometry.md R110 to R118). -/

namespace Sys2Proof.Machine

/-- The three results of GEO: bits per character, octets per word, characters per word (R111 to R113). -/
structure Geometry where
  k : Nat
  B : Nat
  C : Nat
  deriving DecidableEq, Repr

/-- The alphabet sizes GEO accepts: the powers of two in [2, 128] (R110, R115). -/
def validSizes : List Nat := [2, 4, 8, 16, 32, 64, 128]

/-- The geometry of an alphabet of N characters, on unbounded naturals (R111 to R115): `k = log₂ N`, `B = lcm(8, k) / 8`,
`C = B · 8 / k`; `none` outside the valid sizes. -/
def geometry (N : Nat) : Option Geometry :=
  if N ∈ validSizes then
    let k := Nat.log2 N
    let B := Nat.lcm 8 k / 8
    some { k := k, B := B, C := B * 8 / k }
  else none

/-- The packed triple `zext_32(C[3:0] ++ B[3:0] ++ k[3:0])` (30_encoding.md R89). -/
def packGeometry (g : Geometry) : U32 :=
  (BitVec.ofNat 4 g.C ++ BitVec.ofNat 4 g.B ++ BitVec.ofNat 4 g.k).setWidth 32

/-- GEO's execution: the triple, or `InvalidAlphabet` (R110, R115). -/
def answerGeometry (N : Nat) (s : State) : State :=
  match geometry N with
  | some g => respond .ok (packGeometry g) s
  | none => raise .geo .invalidAlphabet s

/-- `GEO N` (R110): no operand is out of contract and no fault register gates it (R85, R238). -/
def execGeo (N : BitVec 8) (s : State) : Host.Outcome State Fault Refusal :=
  .next (checked .geo true (answerGeometry N.toNat) s)

end Sys2Proof.Machine
end

