-- ==== Sys2Proof/Machine/Reader.lean ====
section
/-! DEFINITION. Reader.lean: RDU, the streaming bit read (41_bit_reader.md R130 to R141). -/

namespace Sys2Proof.Machine

/-- R131: the rest of the read is in the buffer. The top `need` unconsumed bits end the result, and the cursor falls by
`need`; `acc` holds the bits gathered before. -/
def finishRead (acc need : Nat) (s : State) : State :=
  let left := s.br.bitsLeft.toNat
  respond .ok (BitVec.ofNat 32 ((acc <<< need) ||| topUnconsumed s.br.buf left need))
    { s with br.bitsLeft := BitVec.ofNat 4 (left - need) }

/-- The fetched octet fills the buffer (R21, R22). -/
def fillBuffer (b : Octet) (s : State) : State :=
  { s with br.buf := b, br.bitsLeft := 8 }

/-- The loop of R130 from a fetch on, that is with an empty buffer and `need ≥ 1` bits still to gather: `whole` further octets
are taken whole, then one more ends the read ("takes whole octets until need ≤ 8 and then ends in the buffered case", R132).
`got` says whether this command has gathered a bit yet (R133). The caller gives `whole = (need − 1) / 8` (log entry 12). -/
def fetchRest : (whole : Nat) → (acc need : Nat) → (got : Bool) → State → State
  | whole, acc, need, got, s =>
    match srcFetch s with
    | (.octet b, s1) =>
      match whole with
      | 0 => finishRead acc need (fillBuffer b s1)
      | k + 1 =>
        fetchRest k ((acc <<< 8) ||| b.toNat) (need - 8) true { s1 with br.buf := b, br.bitsLeft := 0 }
    | (.endOfSource, s1) =>
      if got then raise .br .unexpectedEndOfStream s1 else raise .br .endOfStream s1
    | (.fail, s1) => raise .br .io s1

/-- RDU with a legal width on a reader that is not faulted: the buffered case (R131), or all buffered bits first and then the
source (R132). -/
def readBits (n : Nat) (s : State) : State :=
  let left := s.br.bitsLeft.toNat
  if n ≤ left then finishRead 0 n s
  else
    fetchRest ((n - left - 1) / 8) (topUnconsumed s.br.buf left left) (n - left) (decide (0 < left))
      { s with br.bitsLeft := 0 }

/-- `RDU n` (R130). -/
def execRdu (n : BitVec 6) (s : State) : Host.Outcome State Fault Refusal :=
  .next (checked .br (rduOperandLegal n) (readBits n.toNat) s)

end Sys2Proof.Machine
end

