-- ==== Sys2Proof/Machine/Writer.lean ====
section
/-! DEFINITION. Writer.lean: WRU and FIN, the streaming bit write and its end check (42_bit_writer.md R160 to R169). -/

namespace Sys2Proof.Machine

/-- An octet is complete (R160, cases n = free and n > free): emit it; if the sink takes it, the low r bits of `v` are the fresh
accumulator's top bits; if it fails, nothing is packed (R169). -/
def emitCompleted (b : Octet) (r v : Nat) (s : State) : State :=
  match snkEmit b s with
  | (.ok, s1) => respond .ok 0 { s1 with bw.acc := leftover r v, bw.bitsUsed := BitVec.ofNat 4 r }
  | (.fail, s1) => raise .bw .io s1

/-- WRU with legal operands on a writer that is not faulted (R160, R161). -/
def writeBits (n v : Nat) (s : State) : State :=
  let used := s.bw.bitsUsed.toNat
  let free := 8 - used
  if n < free then
    respond .ok 0
      { s with bw.acc := packBelow s.bw.acc free n v, bw.bitsUsed := BitVec.ofNat 4 (used + n) }
  else emitCompleted (completedOctet s.bw.acc free n v) (n - free) v s

/-- FIN on a writer that is not faulted (R164, R165): it emits nothing and never writes the residue out (R167). -/
def finishWrites (s : State) : State :=
  if s.bw.bitsUsed.toNat = 0 then respond .ok 0 s else raise .bw .unalignedEnd s

/-- `WRU n, v` (R160). -/
def execWru (n : BitVec 4) (v : BitVec 8) (s : State) : Host.Outcome State Fault Refusal :=
  .next (checked .bw (wruOperandLegal n v) (writeBits n.toNat v.toNat) s)

/-- `FIN` (R164). -/
def execFin (s : State) : Host.Outcome State Fault Refusal :=
  .next (checked .bw true finishWrites s)

end Sys2Proof.Machine
end

