-- ==== Sys2Proof/Machine/Dispatch.lean ====
section
/-! DEFINITION. Dispatch.lean: one arm per command (00_scope.md R12). -/

namespace Sys2Proof.Machine

def exec (i : Instr) (s : State) : Host.Outcome State Fault Refusal :=
  match i with
  | .rdu n => Sys2Proof.Machine.execRdu n s
  | .wru n v => Sys2Proof.Machine.execWru n v s
  | .fin => Sys2Proof.Machine.execFin s
  | .geo N => Sys2Proof.Machine.execGeo N s

end Sys2Proof.Machine
end

