-- ==== Sys2Proof/Machine/Step.lean ====
section
/-! DEFINITION. Step.lean: one step is one act of the host taken from the port: a command executed to its response, a reset, or
a binding (92_eei_decisions.md D1, D2; 30_encoding.md R92; 70_reset_and_hazards.md R270, R273, R275, R281). -/

namespace Sys2Proof.Machine

/-- A presented command word: check 1 of 60_exceptions.md R234, then the command's own checks and execution. -/
def runCommand (w : CmdWord) (s : State) : Host.Outcome State Fault Refusal :=
  match recognise w with
  | some i => exec i s
  | none => .next (answerIllegalCommand s)

/-- One step. With nothing presented the block holds its registers (60_exceptions.md R241; log entry 2). -/
def step (s : State) : Host.Outcome State Fault Refusal :=
  match s.port with
  | [] => .next s
  | .command w :: rest => runCommand w { s with port := rest }
  | .reset :: rest => .next (applyReset { s with port := rest })
  | .bindSource octets endless :: rest => .next (bindSource octets endless { s with port := rest })
  | .bindSink :: rest => .next (bindSink { s with port := rest })
  | .resetDuringCommand _ :: _ => .refused .resetDuringCommand
  | .secondCommand _ _ :: _ => .refused .secondCommandBeforeResponse

/-- The state with a command word of the opcode table presented next, before whatever else the host is about to do. A word that
does not fit 16 bits is no command word and is not presented. -/
def State.withFetchWord (s : State) (nbits w : Nat) : State :=
  match tableWord nbits w with
  | some c => { s with port := .command c :: s.port }
  | none => s

end Sys2Proof.Machine
end

