-- ==== Sys2Proof/Machine/Codec.lean ====
section
/-! DEFINITION. Codec.lean: the source's own host, the Codec (43_host_codec.md). It is not part of the block and no rule of the
hardware implements it (00_scope.md R5(a)); it drives the block through `step`, one command at a time, and is here so that the
source's worked examples can be run. Log entries 14 and 21. -/

namespace Sys2Proof.Machine

/-- The pad character '=' (R192). -/
def padChar : Nat := 0x3D

/-- How a run of the host fails (43_host_codec.md R199), and the case R194 says a host that follows it never meets: a
status it does not expect. -/
inductive HostError where
  | invalidAlphabet
  | badCharacter (c : Nat)
  | badPadding
  | unexpectedEndOfStream
  | io
  | unexpectedStatus (st : Status)
  deriving DecidableEq, Repr

/-- Where a run of the host stands. -/
inductive Ending where
  | running
  | clean
  | failed (e : HostError)
  deriving DecidableEq, Repr

/-- The host's configuration, immutable per instance (R192): alphabet and characters are ASCII code points. -/
structure CodecConfig where
  alphabet : List Nat
  reverse : List (Option Nat)
  pads : Bool
  k : Nat
  B : Nat
  C : Nat
  deriving DecidableEq, Repr

/-- One operation of the host: the characters it has emitted (on encode), the coming failures of its character sink or source, the
block, and how it stands. The character streams are finite lists, in memory or streamed alike: the model's choice, log entry 21. -/
structure CodecRun where
  /-- What the character sink holds, oldest first. -/
  out : List Nat
  /-- Whether each coming access to the character sink (encode) or source (decode) fails; no entry means it does not. The model's
  choice, log entry 21. -/
  charDraws : List Bool
  block : State
  ending : Ending
  deriving DecidableEq, Repr

/-- Present one command and take its response (30_encoding.md R92). -/
def issue (i : Instr) (s : State) : Option Response × State :=
  match step { s with port := .command (encode i) :: s.port } with
  | .next t => (t.responses.getLast?, t)
  | .fault _ => (none, s)
  | .refused _ => (none, s)

/-- The alphabet's own conditions (R192): visible ASCII, pairwise distinct, without the pad character. -/
def alphabetOk (alphabet : List Nat) : Bool :=
  alphabet.all (fun c => decide (0x21 ≤ c) && decide (c ≤ 0x7E) && decide (c ≠ padChar)) && decide alphabet.Nodup

/-- The reverse table over [0x21, 0x80); `none` is the sentinel (R192). -/
def reverseTable (alphabet : List Nat) : List (Option Nat) :=
  (List.range (0x80 - 0x21)).map fun j => alphabet.idxOf? (0x21 + j)

/-- Reverse lookup with its bounds check (R195, R207). -/
def lookupChar (cfg : CodecConfig) (c : Nat) : Option Nat :=
  if c < 0x21 then none else (cfg.reverse[c - 0x21]?).join

/-- Construction of a codec: GEO once, then the checks on the characters (R192, 70_reset_and_hazards.md R273 step 1). -/
def construct (alphabet : List Nat) (pads : Bool) (s : State) : Except HostError CodecConfig :=
  if 255 < alphabet.length then .error .invalidAlphabet
  else
    match (issue (.geo (BitVec.ofNat 8 alphabet.length)) s).1 with
    | some { status := .ok, data := d } =>
      if alphabetOk alphabet then
        .ok { alphabet := alphabet, reverse := reverseTable alphabet, pads := pads
              k := d.toNat % 16, B := d.toNat / 16 % 16, C := d.toNat / 256 % 16 }
      else .error .invalidAlphabet
    | some { status := .invalidAlphabet, .. } => .error .invalidAlphabet
    | some r => .error (.unexpectedStatus r.status)
    | none => .error (.unexpectedStatus .illegalCommand)

/-- The operation fails; what it has emitted stays (R199). -/
def CodecRun.fail (r : CodecRun) (block : State) (e : HostError) : CodecRun :=
  { r with block := block, ending := .failed e }

/-- The host's reaction to an RDU status other than `OK` and other than an `EndOfStream` it was waiting for (R194). -/
def readFailure (resp : Option Response) : HostError :=
  match resp with
  | some { status := .endOfStream, .. } => .unexpectedEndOfStream
  | some { status := .unexpectedEndOfStream, .. } => .unexpectedEndOfStream
  | some { status := .io, .. } => .io
  | some r => .unexpectedStatus r.status
  | none => .unexpectedStatus .illegalCommand

/-- One access to the character sink or source: it fails with `Io`, which "wraps underlying source/sink failures", or the
operation goes on with `go` (R199; log entry 21). A failing access transfers no character. -/
def CodecRun.charAccess (go : CodecRun → CodecRun) (r : CodecRun) : CodecRun :=
  let d := drawFail true r.charDraws
  let r1 : CodecRun := { r with charDraws := d.2 }
  if d.1 then r1.fail r1.block .io else go r1

/-- One character written to the character sink (R193). -/
def CodecRun.emit (c : Nat) (r : CodecRun) : CodecRun :=
  r.charAccess fun r1 => { r1 with out := r1.out ++ [c] }

/-- Characters written one after another, up to the first that fails (R199). -/
def CodecRun.emitAll : List Nat → CodecRun → CodecRun
  | [], r => r
  | c :: cs, r => if r.ending = .running then CodecRun.emitAll cs (r.emit c) else r

/-- `alphabet[x]` emitted as a character. -/
def CodecRun.emitChar (cfg : CodecConfig) (x : Nat) (block : State) (r : CodecRun) : CodecRun :=
  CodecRun.emit (cfg.alphabet.getD x 0) { r with block := block }

/-- The operation ends cleanly, unless it has failed. -/
def CodecRun.finish (r : CodecRun) : CodecRun :=
  if r.ending = .running then { r with ending := .clean } else r

/-- The pads that fill the word after character i, if padding is enabled (R193). -/
def padsAfter (cfg : CodecConfig) (i : Nat) : List Nat :=
  if cfg.pads then List.replicate (cfg.C - i - 1) padChar else []

/-- One pass of the encode loop's body, character i of a word (R193, R194). -/
def encodeChar (cfg : CodecConfig) (r : CodecRun) (i : Nat) : CodecRun :=
  if r.ending ≠ .running then r
  else
    let available := 8 - (cfg.k * i) % 8
    if cfg.k ≤ available then
      match issue (.rdu (BitVec.ofNat 6 cfg.k)) r.block with
      | (some { status := .ok, data := v }, t) => r.emitChar cfg v.toNat t
      | (some { status := .endOfStream, data := d }, t) =>
        if i = 0 then { r with block := t, ending := .clean }
        else r.fail t (readFailure (some { status := .endOfStream, data := d }))
      | (resp, t) => r.fail t (readFailure resp)
    else
      let required := cfg.k - available
      match issue (.rdu (BitVec.ofNat 6 available)) r.block with
      | (some { status := .ok, data := high }, t) =>
        match issue (.rdu (BitVec.ofNat 6 required)) t with
        | (some { status := .ok, data := low }, u) =>
          r.emitChar cfg ((high.toNat <<< required) ||| low.toNat) u
        | (some { status := .endOfStream, .. }, u) =>
          ((r.emitChar cfg (high.toNat <<< required) u).emitAll (padsAfter cfg i)).finish
        | (resp, u) => r.fail u (readFailure resp)
      | (resp, t) => r.fail t (readFailure resp)

/-- The encode loop over at most `words` words (R193). -/
def encodeWords (cfg : CodecConfig) : Nat → CodecRun → CodecRun
  | 0, r => r
  | words + 1, r => encodeWords cfg words ((List.range cfg.C).foldl (encodeChar cfg) r)

/-- One encode: bind the source, reset, run the loop (R191, R273). A full word takes at least one octet, so one word more than
there are octets is enough for the loop to end. The same function serves `encode` in memory and on streams (R203), for an octet
stream that ends; `charDraws` says which accesses to the character sink fail. Both are the model's choice, log entry 21. -/
def encodeOctets (cfg : CodecConfig) (octets : List Octet) (charDraws : List Bool) (s : State) : CodecRun :=
  encodeWords cfg (octets.length + 1)
    { out := [], charDraws := charDraws, block := applyReset (bindSource octets false s), ending := .running }

/-- A stop after i characters of a word is legal: no character of the word contributed nothing to a completed octet
(R196: "MUST derive this from the rule ((i·k) mod 8) < k"). -/
def legalStop (k i : Nat) : Bool :=
  decide (i = 0) || decide ((i * k) % 8 < k)

/-- The rest of a PAD run: `count` further characters are read, each of which must be PAD (R195). -/
def padRun : Nat → List Nat → CodecRun → CodecRun
  | 0, _, r => r.finish
  | _ + 1, [], r => r.charAccess fun r1 => r1.fail r1.block .unexpectedEndOfStream
  | count + 1, c :: cs, r =>
    r.charAccess fun r1 => if c = padChar then padRun count cs r1 else r1.fail r1.block .badPadding

/-- The character stream ends before character i of a word (R195, R196). -/
def decodeEnd (cfg : CodecConfig) (i : Nat) (r : CodecRun) : CodecRun :=
  if i = 0 then r.finish
  else if legalStop cfg.k i = false then r.fail r.block .unexpectedEndOfStream
  else if cfg.pads = false then r.finish
  else r.fail r.block .unexpectedEndOfStream

/-- PAD is read as character i of a word, with `cs` still to come (R195, R196). -/
def decodePad (cfg : CodecConfig) (cs : List Nat) (i : Nat) (r : CodecRun) : CodecRun :=
  if cfg.pads = false then r.fail r.block .badPadding
  else if i = 0 then r.fail r.block .badPadding
  else if legalStop cfg.k i = false then r.fail r.block .badPadding
  else padRun (cfg.C - i - 1) cs r

/-- A character that is not PAD is looked up and written; `go` is the rest of the loop (R195, R199). -/
def decodeValue (cfg : CodecConfig) (c : Nat) (go : CodecRun → CodecRun) (r : CodecRun) : CodecRun :=
  match lookupChar cfg c with
  | none => r.fail r.block (.badCharacter c)
  | some v =>
    match issue (.wru (BitVec.ofNat 4 cfg.k) (BitVec.ofNat 8 v)) r.block with
    | (some { status := .ok, .. }, t) => go { r with block := t }
    | (some { status := .io, .. }, t) => r.fail t .io
    | (some resp, t) => r.fail t (.unexpectedStatus resp.status)
    | (none, t) => r.fail t (.unexpectedStatus .illegalCommand)

/-- The decode loop, from character i of a word on (R195). Each reading, the one that meets the end of the characters included, is one
access to the character source. -/
def decodeFrom (cfg : CodecConfig) : List Nat → Nat → CodecRun → CodecRun
  | [], i, r => r.charAccess (decodeEnd cfg i)
  | c :: cs, i, r =>
    r.charAccess fun r1 =>
      if c = padChar then decodePad cfg cs i r1
      else decodeValue cfg c (decodeFrom cfg cs (if i + 1 = cfg.C then 0 else i + 1)) r1

/-- One decode: bind an empty sink, reset, run the loop (R191, R273). It issues no FIN (R200); the octets are in the block's
sink, and a residue is left in the writer and discarded (R197). The same function serves `decode` in memory and on streams (R203),
for a character stream that ends; `charDraws` says which accesses to the character source fail. Both are the model's choice, log
entry 21. -/
def decodeChars (cfg : CodecConfig) (chars : List Nat) (charDraws : List Bool) (s : State) : CodecRun :=
  decodeFrom cfg chars 0 { out := [], charDraws := charDraws, block := applyReset (bindSink s), ending := .running }

/-- The Base16 alphabet (R205, general knowledge; log entry 14). -/
def base16 : List Nat := List.range' 0x30 10 ++ List.range' 0x41 6

/-- The Base32 alphabet (R205). -/
def base32 : List Nat := List.range' 0x41 26 ++ List.range' 0x32 6

/-- The Base32-hex alphabet (R205). -/
def base32hex : List Nat := List.range' 0x30 10 ++ List.range' 0x41 22

/-- The Base64 alphabet (R205). -/
def base64 : List Nat := List.range' 0x41 26 ++ List.range' 0x61 26 ++ List.range' 0x30 10 ++ [0x2B, 0x2F]

/-- The Base64-url alphabet (R205). -/
def base64url : List Nat := List.range' 0x41 26 ++ List.range' 0x61 26 ++ List.range' 0x30 10 ++ [0x2D, 0x5F]

end Sys2Proof.Machine
end

