-- ==== Sys2Proof/Safety.lean ====
section
/-! DEFINITION. Safety.lean: the words claims are made in: bit strings (00_scope.md R10), what a unit still holds (10_state.md R23,
R24), what a source will still give (20_memory.md R51), the invariant of the state between commands (R26, R33), and the
observation that no fault is recorded (60_exceptions.md R232). -/

namespace Sys2Proof.Machine

/-- The n binary digits of v, most significant first (R53, R54). -/
def natBits (n v : Nat) : List Bool :=
  (List.range n).map fun j => v.testBit (n - 1 - j)

/-- `bits(S)`: the most-significant-first concatenation of a sequence of octets (R10). -/
def bitsOf (S : List Octet) : List Bool :=
  S.flatMap fun b => natBits 8 b.toNat

/-- The unsigned number whose binary digits are given, the first the most significant (R53). -/
def natOfBits (bits : List Bool) : Nat :=
  bits.foldl (fun a b => 2 * a + b.toNat) 0

/-- The consecutive pieces of the given lengths that a bit string is cut into, as numbers (R56). -/
def cutBits : List Nat → List Bool → List Nat
  | [], _ => []
  | n :: ns, bits => natOfBits (bits.take n) :: cutBits ns (bits.drop n)

/-- The bit string of numbers written each in its own width, in order (42_bit_writer.md R166's W). -/
def joinBits (writes : List (Nat × Nat)) : List Bool :=
  writes.flatMap fun w => natBits w.1 w.2

/-- The unconsumed bits of the reader, `br.buf[bitsLeft−1 : 0]`, first to be delivered first (R23). -/
def BitReader.unconsumed (r : BitReader) : List Bool :=
  natBits r.bitsLeft.toNat r.buf.toNat

/-- The residue of the writer, `bw.acc[7 : 8−bitsUsed]`, earliest bit first (R24). -/
def BitWriter.residue (w : BitWriter) : List Bool :=
  (natBits 8 w.acc.toNat).take w.bitsUsed.toNat

/-- The next m octets a source will give, fewer if it ends before (R51). -/
def upcoming : Nat → Source → List Octet
  | 0, _ => []
  | m + 1, src =>
    match nextOctet src with
    | some (b, src') => b :: upcoming m src'
    | none => []

/-- The source after m octets have been taken from it, or after its last if it ends before. -/
def sourceAfter : Nat → Source → Source
  | 0, src => src
  | m + 1, src =>
    match nextOctet src with
    | some (_, src') => sourceAfter m src'
    | none => src

/-- The source can still give m octets: it is endless, or that many of its listed octets are left (R51). -/
def Source.canGive (src : Source) (m : Nat) : Prop :=
  src.endless = true ∨ src.sp + m ≤ src.octets.length

/-- None of the next m accesses of a stream is answered `Fail` (R51, R52). -/
def passes (ioFaults : Bool) (draws : List Bool) (m : Nat) : Prop :=
  ioFaults = true → ∀ j < m, draws[j]? ≠ some true

/-- The m-th access from now (counted from 0) is the first one answered `Fail`. -/
def failsAt (ioFaults : Bool) (draws : List Bool) (m : Nat) : Prop :=
  ioFaults = true ∧ (∀ j < m, draws[j]? ≠ some true) ∧ draws[m]? = some true

/-- The draws left after m accesses. -/
def drawsAfter (ioFaults : Bool) (draws : List Bool) (m : Nat) : List Bool :=
  if ioFaults then draws.drop m else draws

/-- How many octets a read of n bits fetches when it succeeds from a buffer with `left` bits (R59, 41_bit_reader.md R137). -/
def fetchCount (n left : Nat) : Nat :=
  if n ≤ left then 0 else (n - left + 7) / 8

/-- `s` after one more response. -/
abbrev answered (st : Status) (data : U32) (s : State) : State :=
  { s with responses := s.responses ++ [{ status := st, data := data }] }

/-- `t` is `s` after a command answered `st`, whatever else the command did. -/
def answeredWith (st : Status) (s t : State) : Prop :=
  ∃ data, t.responses = s.responses ++ [{ status := st, data := data }]

/-- The events of a sequence of reads. -/
def readEvents (ns : List (BitVec 6)) : List HostEvent :=
  ns.map fun n => .command (encode (.rdu n))

/-- The events of a sequence of writes. -/
def writeEvents (writes : List (BitVec 4 × BitVec 8)) : List HostEvent :=
  writes.map fun w => .command (encode (.wru w.1 w.2))

/-- All responses given between `s` and `t` are `OK`. -/
def allOk (rs : List Response) : Prop := ∀ r ∈ rs, r.status = .ok

/-- What holds between commands: both cursors are in [0, 7] (R33), the unfilled low bits of the accumulator are zero (R26), and a
finite source is not read past its end (R51). -/
abbrev Inv (s : State) : Prop :=
  s.br.bitsLeft.toNat ≤ 7 ∧ s.bw.bitsUsed.toNat ≤ 7 ∧
  s.bw.acc.toNat % 2 ^ (8 - s.bw.bitsUsed.toNat) = 0 ∧
  (s.env.source.endless = false → s.env.source.sp ≤ s.env.source.octets.length)

/-- The statuses that count as a fault recorded: codes 2, 3, 5, 6, 7, 8 (R232; `EndOfStream` does not count, and
`InvalidAlphabet` is the host's matter). -/
def Status.isFault : Status → Bool
  | .ok => false
  | .endOfStream => false
  | .invalidAlphabet => false
  | .unexpectedEndOfStream => true
  | .unalignedEnd => true
  | .io => true
  | .illegalCommand => true
  | .illegalOperand => true
  | .unitFaulted => true

/-- The observation "no fault recorded" of a run that began with no responses (R232). -/
def noFaultRecorded (s : State) : Bool :=
  s.br.fault == .none && s.bw.fault == .none && s.responses.all fun r => !r.status.isFault

end Sys2Proof.Machine
end

