-- ==== Sys2Proof/Certificates/Slice0/Obligations.lean ====
section
/-! DEFINITION. Obligations.lean: the statements for the provers, each citing the rule of spec/ it formalises. Every response is
appended to `responses`; the lists of draws (`srcDraws`, `snkDraws`) are the model's own (log entry 5). -/

open Sys2Proof Sys2Proof.Machine

/-! ## The pseudocode of R130, and the readings of a decode, for their own statements -/

namespace Sys2Proof.Machine

/-- The loop of 41_bit_reader.md R130 line by line, with a bound on its passes; `none` if the bound is too small. -/
def rduLoop : (passes acc need : Nat) → (got : Bool) → State → Option State
  | 0, _, _, _, _ => none
  | passes + 1, acc, need, got, s =>
    let left := s.br.bitsLeft.toNat
    if left ≥ need then
      some (answered .ok (BitVec.ofNat 32 ((acc <<< need) ||| s.br.buf.toNat >>> (left - need) % 2 ^ need))
        { s with br.bitsLeft := BitVec.ofNat 4 (left - need) })
    else
      let acc' := if left > 0 then (acc <<< left) ||| s.br.buf.toNat % 2 ^ left else acc
      let need' := if left > 0 then need - left else need
      let got' := if left > 0 then true else got
      match srcFetch { s with br.bitsLeft := 0 } with
      | (.octet b, s1) => rduLoop passes acc' need' got' { s1 with br.buf := b, br.bitsLeft := 8 }
      | (.endOfSource, s1) =>
        if got' = false then some (answered .endOfStream 0 s1)
        else some (answered .unexpectedEndOfStream 0 { s1 with br.fault := .unexpectedEndOfStream })
      | (.fail, s1) => some (answered .io 0 { s1 with br.fault := .io })

/-- How many readings of its character source a decode makes if none fails: at most one a character and one for the end, and each
uses up one draw. -/
def readings (cfg : CodecConfig) (chars : List Nat) (s : State) : Nat :=
  chars.length + 1 - (decodeChars cfg chars (List.replicate (chars.length + 1) false) s).charDraws.length

end Sys2Proof.Machine

/-! ## Encoding (30_encoding.md) -/

/-- Every legal command decodes from its own word (R81, R82, R92). -/
def Obligations.EncodeThenDecodeReturnsTheCommand : Prop :=
  ∀ i : Instr, i.wellFormed = true → decode (encode i) = .ok i

/-- A word that is recognised as a command is that command's word: each word has one meaning and no bit is ignored (R81). -/
def Obligations.RecognisedWordsEncodeBack : Prop :=
  ∀ (w : CmdWord) (i : Instr), recognise w = some i → encode i = w

/-- R83: the four rows by match and mask, the opcode field first; unassigned opcodes match no row. -/
def Obligations.RowsMatchByMask : Prop :=
  ∀ w : CmdWord,
    ((∃ n, recognise w = some (.rdu n)) ↔ w &&& 0xFFC0 = 0x1000) ∧
    ((∃ n v, recognise w = some (.wru n v)) ↔ w &&& 0xF000 = 0x2000) ∧
    (recognise w = some .fin ↔ w &&& 0xFFFF = 0x3000) ∧
    ((∃ N, recognise w = some (.geo N)) ↔ w &&& 0xFF00 = 0x4000) ∧
    (w.toNat / 2 ^ 12 = 0 ∨ 5 ≤ w.toNat / 2 ^ 12 → recognise w = none)

/-- R92: decoding is the procedure the rule writes out, on every word. -/
def Obligations.DecodingFollowsTheProcedure : Prop :=
  ∀ w : CmdWord,
    decode w =
      if w &&& 0xFFC0 = 0x1000 then
        if w.toNat % 64 = 0 ∨ w.toNat % 64 > 32 then .error .illegalOperand
        else .ok (.rdu (BitVec.ofNat 6 (w.toNat % 64)))
      else if w &&& 0xF000 = 0x2000 then
        if w.toNat / 256 % 16 = 0 ∨ w.toNat / 256 % 16 > 8 ∨ w.toNat % 256 ≥ 2 ^ (w.toNat / 256 % 16) then
          .error .illegalOperand
        else .ok (.wru (BitVec.ofNat 4 (w.toNat / 256 % 16)) (BitVec.ofNat 8 (w.toNat % 256)))
      else if w = 0x3000 then .ok .fin
      else if w &&& 0xFF00 = 0x4000 then .ok (.geo (BitVec.ofNat 8 (w.toNat % 256)))
      else .error .illegalCommand

/-- R84: which words are illegal, and their answer: `IllegalCommand`, nothing else changed. -/
def Obligations.IllegalWordsAreAnsweredIllegalCommand : Prop :=
  ∀ w : CmdWord,
    let op := w.toNat / 2 ^ 12
    ((op = 0 ∨ 5 ≤ op ∨ (op = 1 ∧ w.toNat / 2 ^ 6 % 2 ^ 6 ≠ 0) ∨ (op = 3 ∧ w.toNat % 2 ^ 12 ≠ 0) ∨
        (op = 4 ∧ w.toNat / 2 ^ 8 % 2 ^ 4 ≠ 0)) ↔
      decode w = .error .illegalCommand) ∧
    (decode w = .error .illegalCommand →
      ∀ (s : State) (rest : List HostEvent), s.port = .command w :: rest →
        step s = .next (answered .illegalCommand 0 { s with port := rest }))

/-- R141 and R163: an operand out of range is answered `IllegalOperand` whatever the state (the fault registers
included), and nothing changes; with n = 8 every value is legal. -/
def Obligations.OutOfRangeOperandsAreAnsweredIllegalOperand : Prop :=
  (∀ (n : BitVec 6) (s : State), n.toNat = 0 ∨ 33 ≤ n.toNat →
    decode (encode (.rdu n)) = .error .illegalOperand ∧
    exec (.rdu n) s = .next (answered .illegalOperand 0 s)) ∧
  (∀ (n : BitVec 4) (v : BitVec 8) (s : State), n.toNat = 0 ∨ 9 ≤ n.toNat ∨ 2 ^ n.toNat ≤ v.toNat →
    decode (encode (.wru n v)) = .error .illegalOperand ∧
    exec (.wru n v) s = .next (answered .illegalOperand 0 s)) ∧
  (∀ v : BitVec 8, decode (encode (.wru 8 v)) = .ok (.wru 8 v))

/-- A few words written out from Table E1 (R81) decode to the commands they stand for. -/
def Obligations.SampleWordsDecode : Prop :=
  decode 0b0001000000000110 = .ok (.rdu 6) ∧
  decode 0b0010011000011001 = .ok (.wru 6 25) ∧
  decode 0b0011000000000000 = .ok .fin ∧
  decode 0b0100000001000000 = .ok (.geo 64) ∧
  decode 0b0001000001000000 = .error .illegalCommand ∧
  decode 0b0001000000100001 = .error .illegalOperand

/-! ## One step (30_encoding.md R92, 60_exceptions.md R234, 70_reset_and_hazards.md) -/

/-- A presented word is taken from the port and run: as the command it decodes to, or answered by the check that fails first
(R92; checks 1 and 2 of R234). The port is the model's own (log entry 1). -/
def Obligations.StepRunsTheDecodedCommand : Prop :=
  ∀ (s : State) (w : CmdWord) (rest : List HostEvent), s.port = .command w :: rest →
    (∀ i, decode w = .ok i → step s = exec i { s with port := rest }) ∧
    (decode w = .error .illegalOperand → step s = .next (answered .illegalOperand 0 { s with port := rest })) ∧
    (decode w = .error .illegalCommand → step s = .next (answered .illegalCommand 0 { s with port := rest }))

/-- R271 and R272: reset writes all six registers and touches neither the source nor the sink, and answers nothing. -/
def Obligations.ResetWritesTheSixRegistersOnly : Prop :=
  ∀ (s : State) (rest : List HostEvent), s.port = .reset :: rest →
    step s = .next
      { br := { buf := 0x00, bitsLeft := 0, fault := .none }
        bw := { acc := 0x00, bitsUsed := 0, fault := .none }
        env := s.env, port := rest, responses := s.responses }

/-- R35: the reset values of the six registers. -/
def Obligations.ResetStateHoldsTheResetValues : Prop :=
  State.reset.br = { buf := 0x00, bitsLeft := 0, fault := .none } ∧
  State.reset.bw = { acc := 0x00, bitsUsed := 0, fault := .none }

/-- The host binds a source positioned at its first octet, or an empty sink, and the block's registers do not change (R273 step 2;
that a binding is an event of the port is the model's choice, log entry 8). -/
def Obligations.BindingsLeaveTheBlockAlone : Prop :=
  ∀ (s : State) (rest : List HostEvent),
    (∀ octets endless, s.port = .bindSource octets endless :: rest →
      ∃ t, step s = .next t ∧ t.br = s.br ∧ t.bw = s.bw ∧ t.env.sink = s.env.sink ∧ t.env.ioFaults = s.env.ioFaults ∧
        t.env.source.octets = octets ∧ t.env.source.endless = endless ∧ t.env.source.sp = 0 ∧
        t.port = rest ∧ t.responses = s.responses) ∧
    (s.port = .bindSink :: rest → step s = .next { s with env.sink := [], port := rest })

/-- The two acts a model should refuse are refused by name (R275, R281; that they are events is the model's choice, log entry 9). -/
def Obligations.ProtocolViolationsAreRefused : Prop :=
  ∀ (s : State) (rest : List HostEvent),
    (∀ w, s.port = .resetDuringCommand w :: rest → step s = .refused .resetDuringCommand) ∧
    (∀ w1 w2, s.port = .secondCommand w1 w2 :: rest → step s = .refused .secondCommandBeforeResponse)

/-- Everything the host may do is carried out: a step is refused only on the two protocol violations, and no step faults
(60_exceptions.md R230: a failure is a response; log entry 11). -/
def Obligations.OnlyProtocolViolationsStopTheMachine : Prop :=
  ∀ s : State,
    (∃ t, step s = .next t) ∨
    (∃ w rest, s.port = .resetDuringCommand w :: rest) ∨ (∃ w1 w2 rest, s.port = .secondCommand w1 w2 :: rest)

/-! ## GEO (40_geometry.md) -/

/-- R110: GEO's whole effect. For N = 2^k with k from 1 to 7 the answer is the packed triple with B = lcm(8, k) / 8 and
C = B · 8 / k; every other N is answered `InvalidAlphabet`; nothing else changes, faulted units or not. -/
def Obligations.GeoAnswersTheWordGeometry : Prop :=
  ∀ (N : BitVec 8) (s : State),
    (∀ k, 1 ≤ k → k ≤ 7 → N.toNat = 2 ^ k →
      exec (.geo N) s =
        .next (answered .ok (BitVec.ofNat 32 (k + 16 * (Nat.lcm 8 k / 8) + 256 * (Nat.lcm 8 k / 8 * 8 / k))) s)) ∧
    ((¬ ∃ k, 1 ≤ k ∧ k ≤ 7 ∧ N.toNat = 2 ^ k) → exec (.geo N) s = .next (answered .invalidAlphabet 0 s))

/-- R115 on unbounded naturals: GEO succeeds if and only if N = 2^k for some k with 1 ≤ k ≤ 7. -/
def Obligations.GeometryExistsExactlyForPowersOfTwo : Prop :=
  ∀ N : Nat, (∃ g, geometry N = some g) ↔ ∃ k, 1 ≤ k ∧ k ≤ 7 ∧ N = 2 ^ k

/-- R114: the complete function on valid sizes, Table G1. -/
def Obligations.GeoTable : Prop :=
  ∀ s : State,
    exec (.geo 2) s = .next (answered .ok 0x00000811 s) ∧
    exec (.geo 4) s = .next (answered .ok 0x00000412 s) ∧
    exec (.geo 8) s = .next (answered .ok 0x00000833 s) ∧
    exec (.geo 16) s = .next (answered .ok 0x00000214 s) ∧
    exec (.geo 32) s = .next (answered .ok 0x00000855 s) ∧
    exec (.geo 64) s = .next (answered .ok 0x00000436 s) ∧
    exec (.geo 128) s = .next (answered .ok 0x00000877 s)

/-- R117: B octets and C characters are the smallest numbers that align, with the bounds the rule gives. -/
def Obligations.GeometryIsTheSmallestAlignment : Prop :=
  ∀ (N : Nat) (g : Geometry), geometry N = some g →
    8 * g.B = g.k * g.C ∧ 8 * g.B = Nat.lcm 8 g.k ∧
    (0 < g.C ∧ g.k * g.C % 8 = 0 ∧ ∀ i, 0 < i → i < g.C → g.k * i % 8 ≠ 0) ∧
    (0 < g.B ∧ 8 * g.B % g.k = 0 ∧ ∀ j, 0 < j → j < g.B → 8 * j % g.k ≠ 0) ∧
    (1 ≤ g.B ∧ g.B ≤ 7 ∧ 2 ≤ g.C ∧ g.C ≤ 8) ∧
    (g.k % 2 = 1 → g.C = 8)

/-! ## The two stream primitives (20_memory.md) -/

/-- R51: what `SrcFetch` answers and changes. A listed octet is answered and advances the position; where the list is used up a
finite source answers `End` and an infinite one some octet (a free value, log entry 6); `End` and `Fail` change nothing of
the source, so that a source that has ended stays so; and `Fail` needs `IO_FAULTS`. -/
def Obligations.SrcFetchAnswersTheNextOctet : Prop :=
  ∀ s : State,
    let src := s.env.source
    let draws := drawsAfter s.env.ioFaults s.env.srcDraws 1
    (∀ (h : src.sp < src.octets.length), passes s.env.ioFaults s.env.srcDraws 1 →
      srcFetch s = (.octet src.octets[src.sp], { s with env.source.sp := src.sp + 1, env.srcDraws := draws })) ∧
    (src.octets.length ≤ src.sp → src.endless = false → passes s.env.ioFaults s.env.srcDraws 1 →
      srcFetch s = (.endOfSource, { s with env.srcDraws := draws })) ∧
    (src.octets.length ≤ src.sp → src.endless = true → passes s.env.ioFaults s.env.srcDraws 1 →
      ∃ b, srcFetch s =
        (.octet b, { s with env.source := { src with sp := src.sp + 1, fresh := src.fresh + 1 }, env.srcDraws := draws })) ∧
    (failsAt s.env.ioFaults s.env.srcDraws 0 → srcFetch s = (.fail, { s with env.srcDraws := draws })) ∧
    (s.env.ioFaults = false → (srcFetch s).1 ≠ .fail)

/-- R52: `SnkEmit` appends its octet, or fails and leaves the sink unchanged, which it can only if `IO_FAULTS`. -/
def Obligations.SnkEmitAppendsItsOctet : Prop :=
  ∀ (b : Octet) (s : State),
    let draws := drawsAfter s.env.ioFaults s.env.snkDraws 1
    (passes s.env.ioFaults s.env.snkDraws 1 →
      snkEmit b s = (.ok, { s with env.sink := s.env.sink ++ [b], env.snkDraws := draws })) ∧
    (failsAt s.env.ioFaults s.env.snkDraws 0 → snkEmit b s = (.fail, { s with env.snkDraws := draws })) ∧
    (s.env.ioFaults = false → (snkEmit b s).1 = .ok)

/-! ## RDU (41_bit_reader.md) -/

/-- R131: the buffered case. The top n unconsumed bits are returned and the cursor falls by n; nothing is fetched, and it does
not matter whether the source has ended. -/
def Obligations.RduServedFromTheBuffer : Prop :=
  ∀ (n : BitVec 6) (s : State), s.br.fault = .none → 1 ≤ n.toNat → n.toNat ≤ s.br.bitsLeft.toNat →
    s.br.bitsLeft.toNat ≤ 8 →
    exec (.rdu n) s =
      .next (answered .ok (BitVec.ofNat 32 (natOfBits (s.br.unconsumed.take n.toNat)))
        { s with br.bitsLeft := BitVec.ofNat 4 (s.br.bitsLeft.toNat - n.toNat) })

/-- R135 and R137: a successful read. It fetches 0 octets if n ≤ bitsLeft, else ⌈(n − bitsLeft) / 8⌉ (at most 4), and answers
the first n of the unconsumed bits followed by the fetched ones, a number below 2^n; after it the buffer is the last octet
fetched and the cursor is 8·f + l − n. Nothing else changes. -/
def Obligations.RduReturnsTheNextBits : Prop :=
  ∀ (n : BitVec 6) (s : State), Inv s → s.br.fault = .none → 1 ≤ n.toNat → n.toNat ≤ 32 →
    let left := s.br.bitsLeft.toNat
    let f := fetchCount n.toNat left
    let fetched := upcoming f s.env.source
    let value := natOfBits ((s.br.unconsumed ++ bitsOf fetched).take n.toNat)
    s.env.source.canGive f → passes s.env.ioFaults s.env.srcDraws f →
    exec (.rdu n) s =
        .next (answered .ok (BitVec.ofNat 32 value)
          { s with br.buf := fetched.getLastD s.br.buf
                   br.bitsLeft := BitVec.ofNat 4 (8 * f + left - n.toNat)
                   env.source := sourceAfter f s.env.source
                   env.srcDraws := drawsAfter s.env.ioFaults s.env.srcDraws f }) ∧
      value < 2 ^ n.toNat ∧ f ≤ 4 ∧ (sourceAfter f s.env.source).sp = s.env.source.sp + f

/-- R133: a read is answered `EndOfStream` if and only if it starts at a byte boundary, the source has ended and its first
fetch says so; it is answered `UnexpectedEndOfStream` if and only if a fetch of it answers `End` after it has gathered a bit, from the
buffer or from an earlier fetch; and then the fault is set. -/
def Obligations.EndOfStreamExactlyAtAByteBoundary : Prop :=
  ∀ (n : BitVec 6) (s : State), Inv s → s.br.fault = .none → 1 ≤ n.toNat → n.toNat ≤ 32 →
    let left := s.br.bitsLeft.toNat
    ∃ t, exec (.rdu n) s = .next t ∧
      (answeredWith .endOfStream s t ↔
        left = 0 ∧ ¬ s.env.source.canGive 1 ∧ passes s.env.ioFaults s.env.srcDraws 1) ∧
      (answeredWith .unexpectedEndOfStream s t ↔
        ∃ m < fetchCount n.toNat left, 0 < left + m ∧ s.env.source.canGive m ∧ ¬ s.env.source.canGive (m + 1) ∧
          passes s.env.ioFaults s.env.srcDraws (m + 1)) ∧
      (answeredWith .unexpectedEndOfStream s t → t.br.fault = .unexpectedEndOfStream)

/-- R134 after `EndOfStream`: nothing has changed. -/
def Obligations.EndOfStreamChangesNothing : Prop :=
  ∀ (n : BitVec 6) (s : State), s.br.fault = .none → 1 ≤ n.toNat → n.toNat ≤ 32 →
    s.br.bitsLeft.toNat = 0 → ¬ s.env.source.canGive 1 → passes s.env.ioFaults s.env.srcDraws 1 →
    exec (.rdu n) s =
      .next (answered .endOfStream 0 { s with env.srcDraws := drawsAfter s.env.ioFaults s.env.srcDraws 1 })

/-- R134 after `UnexpectedEndOfStream`: the m octets the source still had stay consumed, the buffer is the last of them, the
cursor is 0, the gathered bits are not delivered and the fault is set. -/
def Obligations.UnexpectedEndLeavesAnEmptyFaultedReader : Prop :=
  ∀ (n : BitVec 6) (m : Nat) (s : State), Inv s → s.br.fault = .none → n.toNat ≤ 32 →
    let left := s.br.bitsLeft.toNat
    m < fetchCount n.toNat left → s.env.source.canGive m → ¬ s.env.source.canGive (m + 1) → 0 < left + m →
    passes s.env.ioFaults s.env.srcDraws (m + 1) →
    exec (.rdu n) s =
      .next (answered .unexpectedEndOfStream 0
        { s with br := { buf := (upcoming m s.env.source).getLastD s.br.buf, bitsLeft := 0,
                         fault := .unexpectedEndOfStream }
                 env.source := sourceAfter m s.env.source
                 env.srcDraws := drawsAfter s.env.ioFaults s.env.srcDraws (m + 1) })

/-- R140: a fetch that fails after m octets of this command. The gathered bits are discarded, the octets stay consumed, the
cursor is 0 and the fault is `Io`. Only with `IO_FAULTS` true is a read answered `Io`. -/
def Obligations.FailedFetchLeavesAnIoFault : Prop :=
  (∀ (n : BitVec 6) (m : Nat) (s : State), Inv s → s.br.fault = .none → n.toNat ≤ 32 →
    m < fetchCount n.toNat s.br.bitsLeft.toNat → s.env.source.canGive m →
    failsAt s.env.ioFaults s.env.srcDraws m →
    exec (.rdu n) s =
      .next (answered .io 0
        { s with br := { buf := (upcoming m s.env.source).getLastD s.br.buf, bitsLeft := 0, fault := .io }
                 env.source := sourceAfter m s.env.source
                 env.srcDraws := drawsAfter s.env.ioFaults s.env.srcDraws (m + 1) })) ∧
  (∀ (n : BitVec 6) (s t : State), exec (.rdu n) s = .next t → answeredWith .io s t → s.env.ioFaults = true)

/-- R139: `EndOfStream` sets no fault, and every later read of any legal width answers it too, with the reader and the
source as they were. -/
def Obligations.EndOfStreamRepeats : Prop :=
  ∀ (n m : BitVec 6) (s t : State), exec (.rdu n) s = .next t → answeredWith .endOfStream s t →
    t.br.fault = .none ∧
    (1 ≤ m.toNat → m.toNat ≤ 32 → passes t.env.ioFaults t.env.srcDraws 1 →
      ∃ u, exec (.rdu m) t = .next u ∧ answeredWith .endOfStream t u ∧ u.br = t.br ∧ u.env.source = t.env.source)

/-- R130: RDU is the pseudocode's loop, which a legal width ends within five passes; a faulted reader is answered
`UnitFaulted` before it. -/
def Obligations.RduFollowsTheLoop : Prop :=
  ∀ (n : BitVec 6) (s : State), Inv s → 1 ≤ n.toNat → n.toNat ≤ 32 →
    (s.br.fault ≠ .none → exec (.rdu n) s = .next (answered .unitFaulted 0 s)) ∧
    (s.br.fault = .none → ∃ t, rduLoop 5 0 n.toNat false s = some t ∧ exec (.rdu n) s = .next t)

/-! ## WRU and FIN (42_bit_writer.md) -/

/-- R161: the three cases of a write whose emission, if it makes one, the sink takes. The value fits below the filled bits; or it
fills the octet exactly, which is emitted; or it is split, its top bits ending the emitted octet and its low bits starting the
next. -/
def Obligations.WruPacksFillsOrSplits : Prop :=
  ∀ (n : BitVec 4) (v : BitVec 8) (s : State), Inv s → s.bw.fault = .none → 1 ≤ n.toNat → n.toNat ≤ 8 →
    v.toNat < 2 ^ n.toNat →
    let used := s.bw.bitsUsed.toNat
    let free := 8 - used
    let draws := drawsAfter s.env.ioFaults s.env.snkDraws 1
    (n.toNat < free →
      exec (.wru n v) s =
        .next (answered .ok 0
          { s with bw.acc := s.bw.acc ||| (v <<< (free - n.toNat)), bw.bitsUsed := BitVec.ofNat 4 (used + n.toNat) })) ∧
    (n.toNat = free → passes s.env.ioFaults s.env.snkDraws 1 →
      exec (.wru n v) s =
        .next (answered .ok 0
          { s with bw.acc := 0x00, bw.bitsUsed := 0
                   env.sink := s.env.sink ++ [s.bw.acc ||| v], env.snkDraws := draws })) ∧
    (free < n.toNat → passes s.env.ioFaults s.env.snkDraws 1 →
      exec (.wru n v) s =
        .next (answered .ok 0
          { s with bw.acc := v <<< (8 - (n.toNat - free)), bw.bitsUsed := BitVec.ofNat 4 (n.toNat - free)
                   env.sink := s.env.sink ++ [s.bw.acc ||| (v >>> (n.toNat - free))], env.snkDraws := draws }))

/-- R54 and the step of R166: an answered write appends exactly its n binary digits, most significant first, to the bit
string that the sink and the residue make together. -/
def Obligations.WruAppendsItsBits : Prop :=
  ∀ (n : BitVec 4) (v : BitVec 8) (s t : State), Inv s → exec (.wru n v) s = .next t → answeredWith .ok s t →
    bitsOf t.env.sink ++ t.bw.residue = bitsOf s.env.sink ++ s.bw.residue ++ natBits n.toNat v.toNat

/-- R162: one write performs at most one emission, and it emits if and only if the bits pending reach an octet. -/
def Obligations.WruEmitsAtMostOneOctet : Prop :=
  ∀ (n : BitVec 4) (v : BitVec 8) (s : State), Inv s → s.bw.fault = .none → 1 ≤ n.toNat → n.toNat ≤ 8 →
    v.toNat < 2 ^ n.toNat → passes s.env.ioFaults s.env.snkDraws 1 →
    ∃ t, exec (.wru n v) s = .next t ∧
      (t.env.sink = s.env.sink ∨ ∃ b, t.env.sink = s.env.sink ++ [b]) ∧
      (t.env.sink ≠ s.env.sink ↔ 8 ≤ s.bw.bitsUsed.toNat + n.toNat)

/-- R169: an emission that fails. The octet is not in the sink, accumulator and cursor keep their values, the fault is `Io`.
Only with `IO_FAULTS` true is a write answered `Io`. -/
def Obligations.FailedEmissionPacksNothing : Prop :=
  (∀ (n : BitVec 4) (v : BitVec 8) (s : State), s.bw.fault = .none → 1 ≤ n.toNat → n.toNat ≤ 8 →
    v.toNat < 2 ^ n.toNat → 8 ≤ s.bw.bitsUsed.toNat + n.toNat → failsAt s.env.ioFaults s.env.snkDraws 0 →
    exec (.wru n v) s =
      .next (answered .io 0
        { s with bw.fault := .io, env.snkDraws := drawsAfter s.env.ioFaults s.env.snkDraws 1 })) ∧
  (∀ (n : BitVec 4) (v : BitVec 8) (s t : State), exec (.wru n v) s = .next t → answeredWith .io s t →
    s.env.ioFaults = true)

/-- R164: FIN's whole effect. A faulted writer answers `UnitFaulted`; at a byte boundary the answer is `OK`; otherwise the
writer is faulted. It never emits and never looks at the accumulator. -/
def Obligations.FinChecksTheByteBoundary : Prop :=
  ∀ s : State,
    (s.bw.fault ≠ .none → exec .fin s = .next (answered .unitFaulted 0 s)) ∧
    (s.bw.fault = .none → s.bw.bitsUsed = 0 → exec .fin s = .next (answered .ok 0 s)) ∧
    (s.bw.fault = .none → s.bw.bitsUsed ≠ 0 →
      exec .fin s = .next (answered .unalignedEnd 0 { s with bw.fault := .unalignedEnd }))

/-! ## Failures and the fault gate (60_exceptions.md) -/

/-- R238: a faulted unit's commands are answered `UnitFaulted` and change nothing; the other unit and GEO behave as if it were
not faulted; no command clears a fault register. -/
def Obligations.FaultGate : Prop :=
  (∀ (n : BitVec 6) (s : State), 1 ≤ n.toNat → n.toNat ≤ 32 → s.br.fault ≠ .none →
    exec (.rdu n) s = .next (answered .unitFaulted 0 s)) ∧
  (∀ (n : BitVec 4) (v : BitVec 8) (s : State), 1 ≤ n.toNat → n.toNat ≤ 8 → v.toNat < 2 ^ n.toNat →
    s.bw.fault ≠ .none → exec (.wru n v) s = .next (answered .unitFaulted 0 s)) ∧
  (∀ s : State, s.bw.fault ≠ .none → exec .fin s = .next (answered .unitFaulted 0 s)) ∧
  (∀ (i : Instr) (f : BrFault) (s t : State), (∀ n, i ≠ .rdu n) → exec i s = .next t →
    exec i { s with br.fault := f } = .next { t with br.fault := f }) ∧
  (∀ (i : Instr) (f : BwFault) (s t : State), (∀ n v, i ≠ .wru n v) → i ≠ .fin → exec i s = .next t →
    exec i { s with bw.fault := f } = .next { t with bw.fault := f }) ∧
  (∀ (i : Instr) (s t : State), exec i s = .next t →
    (s.br.fault ≠ .none → t.br.fault = s.br.fault) ∧ (s.bw.fault ≠ .none → t.bw.fault = s.bw.fault))

/-- R27, R28, R237: whatever the host does short of reset, a recorded fault stays. -/
def Obligations.FaultsStayUntilReset : Prop :=
  ∀ s t : State, step s = .next t → (∀ rest, s.port ≠ .reset :: rest) →
    (s.br.fault ≠ .none → t.br.fault = s.br.fault) ∧ (s.bw.fault ≠ .none → t.bw.fault = s.bw.fault)

/-- R87: every command is answered by exactly one response; only `OK` of RDU and of GEO carries data; a response word
has the status above its 32 bits of data. -/
def Obligations.EveryCommandIsAnsweredOnce : Prop :=
  (∀ (i : Instr) (s : State), ∃ t r, exec i s = .next t ∧ t.responses = s.responses ++ [r] ∧
    (r.data ≠ 0 → r.status = .ok ∧ ((∃ n, i = .rdu n) ∨ ∃ N, i = .geo N))) ∧
  (∀ r : Response, (responseWord r).toNat = (statusCode r.status).toNat * 2 ^ 32 + r.data.toNat)

/-- R88, Table E2: the codes, which command produces which status, and which statuses set a unit's fault. -/
def Obligations.StatusesFollowTableE2 : Prop :=
  ([Status.ok, .endOfStream, .unexpectedEndOfStream, .unalignedEnd, .invalidAlphabet, .io, .illegalCommand,
      .illegalOperand, .unitFaulted].map fun st => (statusCode st).toNat) = [0, 1, 2, 3, 4, 5, 6, 7, 8] ∧
  ∀ (i : Instr) (s t : State) (st : Status), exec i s = .next t → answeredWith st s t →
    (match i with
      | .rdu _ => st ∈ [Status.ok, .endOfStream, .unexpectedEndOfStream, .io, .illegalOperand, .unitFaulted] ∧
          t.br.fault = (match st with
            | .unexpectedEndOfStream => .unexpectedEndOfStream
            | .io => .io
            | _ => s.br.fault) ∧ t.bw.fault = s.bw.fault
      | .wru _ _ => st ∈ [Status.ok, .io, .illegalOperand, .unitFaulted] ∧
          t.bw.fault = (match st with
            | .io => .io
            | _ => s.bw.fault) ∧ t.br.fault = s.br.fault
      | .fin => st ∈ [Status.ok, .unalignedEnd, .unitFaulted] ∧
          t.bw.fault = (match st with
            | .unalignedEnd => .unalignedEnd
            | _ => s.bw.fault) ∧ t.br.fault = s.br.fault
      | .geo _ => st ∈ [Status.ok, .invalidAlphabet] ∧ t.br.fault = s.br.fault ∧ t.bw.fault = s.bw.fault)

/-- R242: with `IO_FAULTS` false the status `Io` is never given and no fault register becomes `Io`, whatever the host does. -/
def Obligations.WithoutIoFaultsNothingFails : Prop :=
  ∀ s t : State, s.env.ioFaults = false → step s = .next t →
    t.env.ioFaults = false ∧
    (∀ r, t.responses = s.responses ++ [r] → r.status ≠ .io) ∧
    (t.br.fault = .io → s.br.fault = .io) ∧ (t.bw.fault = .io → s.bw.fault = .io)

/-! ## Frames and the whole machine (10_state.md, 20_memory.md) -/

/-- R20 and R50: what each command leaves unchanged. RDU touches neither the writer nor the sink; WRU and FIN neither the reader
nor the source, and FIN only the fault register; GEO nothing. Nothing touches the octets of the source, what is already in the
sink, the parameter `IO_FAULTS`, the port, or an earlier response. -/
def Obligations.CommandsStayInTheirUnit : Prop :=
  ∀ (i : Instr) (s t : State), exec i s = .next t →
    t.port = s.port ∧ t.env.ioFaults = s.env.ioFaults ∧
    t.env.source.octets = s.env.source.octets ∧ t.env.source.endless = s.env.source.endless ∧
    s.env.sink <+: t.env.sink ∧ s.responses <+: t.responses ∧
    (match i with
      | .rdu _ => t.bw = s.bw ∧ t.env.sink = s.env.sink ∧ t.env.snkDraws = s.env.snkDraws
      | .wru _ _ => t.br = s.br ∧ t.env.source = s.env.source ∧ t.env.srcDraws = s.env.srcDraws
      | .fin => t.br = s.br ∧ t.env = s.env ∧ t.bw.acc = s.bw.acc ∧ t.bw.bitsUsed = s.bw.bitsUsed
      | .geo _ => t.br = s.br ∧ t.bw = s.bw ∧ t.env = s.env)

/-- R59 and R61: one command fetches at most four octets and emits at most one, and neither is ever taken back. -/
def Obligations.StreamsOnlyMoveForward : Prop :=
  ∀ (i : Instr) (s t : State), exec i s = .next t →
    s.env.source.sp ≤ t.env.source.sp ∧ t.env.source.sp ≤ s.env.source.sp + 4 ∧
    (t.env.sink = s.env.sink ∨ ∃ b, t.env.sink = s.env.sink ++ [b])

/-- R29: GEO's answer depends on its operand alone and changes nothing. -/
def Obligations.GeoIsPure : Prop :=
  ∀ N : BitVec 8, ∃ r : Response, ∀ s : State,
    exec (.geo N) s = .next { s with responses := s.responses ++ [r] }

/-- R67: a BR command touches nothing of the writer, a BW command nothing of the reader, GEO nothing of either; and a BR
command and a BW command commute: in either order each is answered the same, and the final registers and streams are the same. -/
def Obligations.ReaderAndWriterCommandsCommute : Prop :=
  (∀ (n : BitVec 6) (j : Instr) (s : State), (j = .fin ∨ ∃ m v, j = .wru m v) →
    ∃ t1 t2 u1 u2 r q,
      exec (.rdu n) s = .next t1 ∧ exec j t1 = .next t2 ∧ exec j s = .next u1 ∧ exec (.rdu n) u1 = .next u2 ∧
      t1.bw = s.bw ∧ t1.env.sink = s.env.sink ∧ u1.br = s.br ∧ u1.env.source = s.env.source ∧
      t2.responses = s.responses ++ [r, q] ∧ u2.responses = s.responses ++ [q, r] ∧
      t2.br = u2.br ∧ t2.bw = u2.bw ∧ t2.env = u2.env ∧ t2.port = u2.port) ∧
  (∀ (N : BitVec 8) (s t : State), exec (.geo N) s = .next t → t.br = s.br ∧ t.bw = s.bw ∧ t.env = s.env)

/-- R26 and R33: between commands both cursors are in [0, 7] and the unfilled bits of the accumulator are zero (with R51: the
position of a finite source is not past its end). Every step keeps this. -/
def Obligations.EveryStepKeepsTheInvariant : Prop :=
  ∀ s t : State, Inv s → step s = .next t → Inv t

/-- The invariant holds at reset (R35). -/
def Obligations.TheInvariantHoldsAtReset : Prop :=
  Inv State.reset

/-! ## The contracts -/

/-- R136: reads of widths n₁, …, n_m after reset that are all answered `OK` cut the source's bit string into consecutive
pieces, earliest bit most significant, and the octets fetched and the cursor are as the rule says; and where no fetch fails
all are answered `OK` if and only if the widths add up to no more bits than the source has. -/
def Obligations.ReadsCutTheSourceBitString : Prop :=
  ∀ (ns : List (BitVec 6)) (s : State),
    s.br = BitReader.reset → s.env.source.sp = 0 →
    (∀ n ∈ ns, 1 ≤ n.toNat ∧ n.toNat ≤ 32) → s.port = readEvents ns →
    let total := (ns.map BitVec.toNat).sum
    let m := (total + 7) / 8
    ∃ (t : State) (rs : List Response),
      core.run ns.length s = .next t ∧ t.responses = s.responses ++ rs ∧ rs.length = ns.length ∧
      (s.env.ioFaults = false → (allOk rs ↔ s.env.source.endless = true ∨ total ≤ 8 * s.env.source.octets.length)) ∧
      (allOk rs →
        (rs.map fun r => r.data.toNat) = cutBits (ns.map BitVec.toNat) (bitsOf (upcoming m s.env.source)) ∧
        t.env.source.sp = m ∧ t.br.bitsLeft.toNat = 8 * m - total)

/-- R166: writes (n₁, v₁), …, (n_m, v_m) after reset, none of whose emissions fails, are all answered `OK`; the sink
holds the first ⌊T/8⌋ octets of their bit string, the residue is its last T mod 8 bits, the rest of the accumulator is zero, and
FIN then answers `OK` if and only if T mod 8 = 0. -/
def Obligations.WritesBuildTheSinkBitString : Prop :=
  ∀ (writes : List (BitVec 4 × BitVec 8)) (s : State),
    s.bw = BitWriter.reset → s.env.sink = [] →
    (∀ w ∈ writes, 1 ≤ w.1.toNat ∧ w.1.toNat ≤ 8 ∧ w.2.toNat < 2 ^ w.1.toNat) → s.port = writeEvents writes →
    let W := joinBits (writes.map fun w => (w.1.toNat, w.2.toNat))
    passes s.env.ioFaults s.env.snkDraws (W.length / 8) →
    ∃ (t : State) (rs : List Response),
      core.run writes.length s = .next t ∧ t.responses = s.responses ++ rs ∧ rs.length = writes.length ∧ allOk rs ∧
      bitsOf t.env.sink = W.take (8 * (W.length / 8)) ∧ t.env.sink.length = W.length / 8 ∧
      t.bw.bitsUsed.toNat = W.length % 8 ∧ t.bw.residue = W.drop (8 * (W.length / 8)) ∧
      t.bw.acc.toNat % 2 ^ (8 - W.length % 8) = 0 ∧
      ∃ u, exec .fin t = .next u ∧ (answeredWith .ok t u ↔ W.length % 8 = 0)

/-- R168, first half: octets that writes produced, presented as a source to a reset reader, give the written values back to
reads of the same widths, for as long as they last. -/
def Obligations.WrittenValuesAreReadBack : Prop :=
  ∀ (writes : List (BitVec 4 × BitVec 8)) (j : Nat) (s t : State),
    s.bw = BitWriter.reset → s.env.sink = [] → s.env.ioFaults = false →
    (∀ w ∈ writes, 1 ≤ w.1.toNat ∧ w.1.toNat ≤ 8 ∧ w.2.toNat < 2 ^ w.1.toNat) → s.port = writeEvents writes →
    core.run writes.length s = .next t →
    ((writes.take j).map fun w => w.1.toNat).sum ≤ 8 * t.env.sink.length →
    ∃ (u : State) (rs : List Response),
      core.run (writes.take j).length
          { t with br := BitReader.reset, port := readEvents ((writes.take j).map fun w => w.1.setWidth 6),
                   env.source := { octets := t.env.sink, endless := false, sp := 0, fresh := 0 } } = .next u ∧
      u.responses = t.responses ++ rs ∧ allOk rs ∧
      (rs.map fun r => r.data.toNat) = (writes.take j).map fun w => w.2.toNat

/-- R168, second half: reads that use up a source exactly, written back with the same widths, give the sink the source's octets,
and FIN answers `OK`. -/
def Obligations.ReadValuesWriteTheSourceBack : Prop :=
  ∀ (ns : List (BitVec 6)) (s t : State) (rs : List Response),
    s.br = BitReader.reset → s.bw = BitWriter.reset → s.env.source.sp = 0 → s.env.source.endless = false →
    s.env.sink = [] → s.env.ioFaults = false → (∀ n ∈ ns, 1 ≤ n.toNat ∧ n.toNat ≤ 8) →
    (ns.map BitVec.toNat).sum = 8 * s.env.source.octets.length → s.port = readEvents ns →
    core.run ns.length s = .next t → t.responses = s.responses ++ rs →
    ∃ u v,
      core.run ns.length
          { t with port := writeEvents ((ns.zip rs).map fun p => (p.1.setWidth 4, p.2.data.setWidth 8)) } = .next u ∧
      u.env.sink = s.env.source.octets ∧ exec .fin u = .next v ∧ answeredWith .ok u v

/-! ## The host (43_host_codec.md) -/

/-- R196, Table H1: the legal stops of each k, derived from the rule `((i·k) mod 8) < k`. -/
def Obligations.LegalStopsAreTableH1 : Prop :=
  ([(1, 8), (2, 4), (3, 8), (4, 2), (5, 8), (6, 4), (7, 8)].map fun p : Nat × Nat =>
      (List.range p.2).filter (legalStop p.1)) =
    [[0], [0], [0, 3, 6], [0], [0, 2, 4, 5, 7], [0, 2, 3], [0, 2, 3, 4, 5, 6, 7]]

/-- R202, first property, for every alphabet the host accepts and either pad policy: decoding what encoding a finite octet
stream emitted gives the octets back, where no stream fails, of octets or of characters. The host is not part of the block
(log entry 14), and the failures of its character streams are lists of draws (log entry 21). -/
def Obligations.DecodingUndoesEncoding : Prop :=
  ∀ (alphabet : List Nat) (pads : Bool) (cfg : CodecConfig) (octets : List Octet) (draws1 draws2 : List Bool)
      (s s1 s2 : State),
    s1.env.ioFaults = false → s2.env.ioFaults = false → (∀ d ∈ draws1, d = false) → (∀ d ∈ draws2, d = false) →
    construct alphabet pads s = .ok cfg →
    let encoded := encodeOctets cfg octets draws1 s1
    let decoded := decodeChars cfg encoded.out draws2 s2
    encoded.ending = .clean ∧ decoded.ending = .clean ∧ decoded.block.env.sink = octets

/-- R199: a failing access to the host's character sink (on encode) or character source (on decode) fails the operation with
`Io`, and what was emitted before it stays. If the j-th access (counted from 0) is the first that fails, and the operation would
make it had none failed, then an encode has emitted just the first j characters and a decode the octets that the first j characters
give; if no access the operation makes fails, it emits the same and ends the same; and in every case what is emitted is a beginning of
what would have been. The draws are the model's own (log entry 21). -/
def Obligations.FailedCharacterAccessesKeepTheOutput : Prop :=
  (∀ (cfg : CodecConfig) (octets : List Octet) (draws : List Bool) (s : State),
    let run := encodeOctets cfg octets draws s
    let unfailing := encodeOctets cfg octets [] s
    run.out <+: unfailing.out ∧
    (run.ending = .failed .io ∨ run.out = unfailing.out ∧ run.ending = unfailing.ending) ∧
    (∀ j < unfailing.out.length, failsAt true draws j →
      run.ending = .failed .io ∧ run.out = unfailing.out.take j) ∧
    (passes true draws unfailing.out.length → run.out = unfailing.out ∧ run.ending = unfailing.ending)) ∧
  (∀ (cfg : CodecConfig) (chars : List Nat) (draws : List Bool) (s : State),
    let run := decodeChars cfg chars draws s
    let unfailing := decodeChars cfg chars [] s
    run.block.env.sink <+: unfailing.block.env.sink ∧
    (run.ending = .failed .io ∨
      run.block.env.sink = unfailing.block.env.sink ∧ run.ending = unfailing.ending) ∧
    (∀ j < readings cfg chars s, failsAt true draws j →
      run.ending = .failed .io ∧ run.block.env.sink = (decodeChars cfg (chars.take j) [] s).block.env.sink) ∧
    (passes true draws (readings cfg chars s) →
      run.block.env.sink = unfailing.block.env.sink ∧ run.ending = unfailing.ending)) ∧
  (∀ (cfg : CodecConfig) (chars : List Nat) (draws : List Bool) (s : State),
    (decodeChars cfg chars (true :: draws) s).ending = .failed .io ∧
    (decodeChars cfg chars (true :: draws) s).block.env.sink = [])
end

