-- ==== Sys2Proof/Laws/Bits.lean ====
section
/-! SUPPORT. Bits.lean: the laws of bit strings: lengths, concatenation, numbers and their digits (00_scope.md R8, R10). -/

namespace Sys2Proof.Machine

@[simp] theorem natBits_length (n v : Nat) : (natBits n v).length = n := by
  simp [natBits]

@[simp] theorem natBits_zero_width (v : Nat) : natBits 0 v = [] := rfl

theorem natBits_succ (n v : Nat) : natBits (n + 1) v = v.testBit n :: natBits n v := by
  simp only [natBits, List.range_succ_eq_map, List.map_cons, List.map_map]
  refine congrArg₂ _ (by simp) (List.map_congr_left fun j _ => ?_)
  simp only [Function.comp_apply]
  congr 1
  omega

/-- A number's digits are those of its high part followed by those of its low part. -/
theorem natBits_add (a b v : Nat) : natBits (a + b) v = natBits a (v >>> b) ++ natBits b v := by
  induction a with
  | zero => simp
  | succ a ih =>
    rw [show a + 1 + b = (a + b) + 1 by omega, natBits_succ, ih, natBits_succ]
    simp [Nat.testBit_shiftRight, Nat.add_comm]

theorem natBits_congr {n v w : Nat} (h : ∀ j < n, v.testBit j = w.testBit j) : natBits n v = natBits n w := by
  induction n with
  | zero => rfl
  | succ n ih => rw [natBits_succ, natBits_succ, h n (by omega), ih fun j hj => h j (by omega)]

theorem natBits_mod {n m v : Nat} (h : n ≤ m) : natBits n (v % 2 ^ m) = natBits n v :=
  natBits_congr fun j hj => by simp [Nat.testBit_mod_two_pow, show j < m by omega]

/-- The first a of the n digits of v are the digits of v shifted right by n − a. -/
theorem natBits_take {a n v : Nat} (h : a ≤ n) : (natBits n v).take a = natBits a (v >>> (n - a)) := by
  obtain ⟨b, rfl⟩ := Nat.exists_eq_add_of_le h
  rw [natBits_add, List.take_left' (natBits_length _ _)]
  simp

theorem natBits_drop {a n v : Nat} (h : a ≤ n) : (natBits n v).drop a = natBits (n - a) v := by
  obtain ⟨b, rfl⟩ := Nat.exists_eq_add_of_le h
  rw [natBits_add, List.drop_left' (natBits_length _ _)]
  simp

@[simp] theorem natOfBits_nil : natOfBits [] = 0 := rfl

theorem natOfBits_foldl (a : Nat) (bs : List Bool) :
    bs.foldl (fun a b => 2 * a + b.toNat) a = a * 2 ^ bs.length + natOfBits bs := by
  induction bs generalizing a with
  | nil => simp
  | cons b bs ih =>
    simp only [natOfBits, List.foldl_cons, List.length_cons]
    rw [ih, ih (2 * 0 + b.toNat)]
    ring

/-- Concatenation puts the earlier bits in the more significant position (R55). -/
theorem natOfBits_append (a b : List Bool) :
    natOfBits (a ++ b) = natOfBits a * 2 ^ b.length + natOfBits b := by
  rw [natOfBits, List.foldl_append, natOfBits_foldl]
  rfl

theorem natOfBits_lt (bs : List Bool) : natOfBits bs < 2 ^ bs.length := by
  induction bs with
  | nil => simp
  | cons b bs ih =>
    have h := natOfBits_foldl (2 * 0 + b.toNat) bs
    simp only [natOfBits, List.foldl_cons, List.length_cons] at *
    rw [h, pow_succ]
    cases b <;> simp <;> omega

/-- Reading the n digits of v back gives v modulo 2^n. -/
theorem natOfBits_natBits (n v : Nat) : natOfBits (natBits n v) = v % 2 ^ n := by
  induction n with
  | zero => simp [Nat.mod_one]
  | succ n ih =>
    have h := natOfBits_append [v.testBit n] (natBits n v)
    rw [natBits_succ, ← List.singleton_append, h, ih, natBits_length, pow_succ]
    have hm : v % (2 ^ n * 2) = v % 2 ^ n + 2 ^ n * (v / 2 ^ n % 2) := Nat.mod_mul
    have hb : natOfBits [v.testBit n] = v / 2 ^ n % 2 := by
      simp only [natOfBits, List.foldl_cons, List.foldl_nil, Nat.testBit_eq_decide_div_mod_eq]
      rcases Nat.mod_two_eq_zero_or_one (v / 2 ^ n) with h | h <;> simp [h]
    rw [hm, hb]
    ring

@[simp] theorem bitsOf_nil : bitsOf [] = [] := rfl

@[simp] theorem bitsOf_cons (b : Octet) (S : List Octet) : bitsOf (b :: S) = natBits 8 b.toNat ++ bitsOf S := rfl

@[simp] theorem bitsOf_append (S T : List Octet) : bitsOf (S ++ T) = bitsOf S ++ bitsOf T := by
  simp [bitsOf]

@[simp] theorem bitsOf_length (S : List Octet) : (bitsOf S).length = 8 * S.length := by
  induction S with
  | nil => rfl
  | cons b S ih => simp [ih]; omega

@[simp] theorem unconsumed_length (r : BitReader) : r.unconsumed.length = r.bitsLeft.toNat := by
  simp [BitReader.unconsumed]

theorem residue_length {w : BitWriter} (h : w.bitsUsed.toNat ≤ 8) : w.residue.length = w.bitsUsed.toNat := by
  simp [BitWriter.residue, h]

/-- The digits of the top n unconsumed bits are the first n unconsumed bits (R8, R131). -/
theorem natBits_topUnconsumed {buf : Octet} {left n : Nat} (h : n ≤ left) :
    natBits n (topUnconsumed buf left n) = (natBits left buf.toNat).take n := by
  rw [natBits_take h, topUnconsumed, natBits_mod (Nat.le_refl n)]

theorem topUnconsumed_eq_natOfBits {buf : Octet} {left n : Nat} (h : n ≤ left) :
    topUnconsumed buf left n = natOfBits ((natBits left buf.toNat).take n) := by
  rw [natBits_take h, natOfBits_natBits, topUnconsumed]

end Sys2Proof.Machine
end

