-- ==== Sys2Proof/Laws/State.lean ====
section
/-! SUPPORT. State.lean: one lemma per field per update of State: responding, recording a fault, failing, reset, the host's
bindings. -/

namespace Sys2Proof.Machine

variable (st : Status) (d : U32) (u : UnitName) (s : State)

@[simp] theorem respond_br : (respond st d s).br = s.br := rfl
@[simp] theorem respond_bw : (respond st d s).bw = s.bw := rfl
@[simp] theorem respond_env : (respond st d s).env = s.env := rfl
@[simp] theorem respond_port : (respond st d s).port = s.port := rfl
@[simp] theorem respond_responses :
    (respond st d s).responses = s.responses ++ [{ status := st, data := d }] := rfl

@[simp] theorem recordFault_buf : (recordFault u st s).br.buf = s.br.buf := by cases u <;> cases st <;> rfl
@[simp] theorem recordFault_bitsLeft : (recordFault u st s).br.bitsLeft = s.br.bitsLeft := by cases u <;> cases st <;> rfl
@[simp] theorem recordFault_acc : (recordFault u st s).bw.acc = s.bw.acc := by cases u <;> cases st <;> rfl
@[simp] theorem recordFault_bitsUsed : (recordFault u st s).bw.bitsUsed = s.bw.bitsUsed := by cases u <;> cases st <;> rfl
@[simp] theorem recordFault_env : (recordFault u st s).env = s.env := by cases u <;> cases st <;> rfl
@[simp] theorem recordFault_port : (recordFault u st s).port = s.port := by cases u <;> cases st <;> rfl
@[simp] theorem recordFault_responses : (recordFault u st s).responses = s.responses := by cases u <;> cases st <;> rfl
@[simp] theorem recordFault_br_of_bw : (recordFault .bw st s).br = s.br := by cases st <;> rfl
@[simp] theorem recordFault_bw_of_br : (recordFault .br st s).bw = s.bw := by cases st <;> rfl
@[simp] theorem recordFault_geo : recordFault .geo st s = s := by cases st <;> rfl
@[simp] theorem recordFault_illegalOperand : recordFault u .illegalOperand s = s := by cases u <;> rfl
@[simp] theorem recordFault_unitFaulted : recordFault u .unitFaulted s = s := by cases u <;> rfl
@[simp] theorem recordFault_endOfStream : recordFault u .endOfStream s = s := by cases u <;> rfl

@[simp] theorem raise_buf : (raise u st s).br.buf = s.br.buf := by simp [raise]
@[simp] theorem raise_bitsLeft : (raise u st s).br.bitsLeft = s.br.bitsLeft := by simp [raise]
@[simp] theorem raise_acc : (raise u st s).bw.acc = s.bw.acc := by simp [raise]
@[simp] theorem raise_bitsUsed : (raise u st s).bw.bitsUsed = s.bw.bitsUsed := by simp [raise]
@[simp] theorem raise_env : (raise u st s).env = s.env := by simp [raise]
@[simp] theorem raise_port : (raise u st s).port = s.port := by simp [raise]
@[simp] theorem raise_responses :
    (raise u st s).responses = s.responses ++ [{ status := st, data := 0 }] := by simp [raise]
@[simp] theorem raise_br_of_bw : (raise .bw st s).br = s.br := by simp [raise]
@[simp] theorem raise_bw_of_br : (raise .br st s).bw = s.bw := by simp [raise]
@[simp] theorem raise_geo : raise .geo st s = respond st 0 s := by simp [raise]
@[simp] theorem raise_illegalOperand : raise u .illegalOperand s = respond .illegalOperand 0 s := by simp [raise]
@[simp] theorem raise_unitFaulted : raise u .unitFaulted s = respond .unitFaulted 0 s := by simp [raise]
@[simp] theorem raise_endOfStream : raise u .endOfStream s = respond .endOfStream 0 s := by simp [raise]

/-- The fault registers after a failure of BR (60_exceptions.md R235(b)). -/
theorem raise_br_fault : (raise .br st s).br.fault =
    (match st with
      | .unexpectedEndOfStream => .unexpectedEndOfStream
      | .io => .io
      | _ => s.br.fault) := by cases st <;> rfl

/-- The fault registers after a failure of BW (60_exceptions.md R235(b)). -/
theorem raise_bw_fault : (raise .bw st s).bw.fault =
    (match st with
      | .unalignedEnd => .unalignedEnd
      | .io => .io
      | _ => s.bw.fault) := by cases st <;> rfl

@[simp] theorem applyReset_br : (applyReset s).br = BitReader.reset := rfl
@[simp] theorem applyReset_bw : (applyReset s).bw = BitWriter.reset := rfl
@[simp] theorem applyReset_env : (applyReset s).env = s.env := rfl
@[simp] theorem applyReset_port : (applyReset s).port = s.port := rfl
@[simp] theorem applyReset_responses : (applyReset s).responses = s.responses := rfl

variable (S : List Octet) (e : Bool)

@[simp] theorem bindSource_br : (bindSource S e s).br = s.br := rfl
@[simp] theorem bindSource_bw : (bindSource S e s).bw = s.bw := rfl
@[simp] theorem bindSource_sink : (bindSource S e s).env.sink = s.env.sink := rfl
@[simp] theorem bindSource_ioFaults : (bindSource S e s).env.ioFaults = s.env.ioFaults := rfl
@[simp] theorem bindSource_octets : (bindSource S e s).env.source.octets = S := rfl
@[simp] theorem bindSource_endless : (bindSource S e s).env.source.endless = e := rfl
@[simp] theorem bindSource_sp : (bindSource S e s).env.source.sp = 0 := rfl
@[simp] theorem bindSource_port : (bindSource S e s).port = s.port := rfl
@[simp] theorem bindSource_responses : (bindSource S e s).responses = s.responses := rfl

@[simp] theorem bindSink_br : (bindSink s).br = s.br := rfl
@[simp] theorem bindSink_bw : (bindSink s).bw = s.bw := rfl
@[simp] theorem bindSink_source : (bindSink s).env.source = s.env.source := rfl
@[simp] theorem bindSink_sink : (bindSink s).env.sink = [] := rfl
@[simp] theorem bindSink_ioFaults : (bindSink s).env.ioFaults = s.env.ioFaults := rfl
@[simp] theorem bindSink_port : (bindSink s).port = s.port := rfl
@[simp] theorem bindSink_responses : (bindSink s).responses = s.responses := rfl

end Sys2Proof.Machine
end

