-- ==== Sys2Proof/Laws/Ops.lean ====
section
/-! SUPPORT. Ops.lean: one lemma per shared operation that says everything it can do, which later proofs cite instead of
unfolding it. -/

namespace Sys2Proof.Machine

/-- The checks before execution end in one of three ways (60_exceptions.md R234). -/
theorem checked_cases (u : UnitName) (legal : Bool) (run : State → State) (s : State) :
    (legal = false ∧ checked u legal run s = respond .illegalOperand 0 s) ∨
    (legal = true ∧ unitFaulted u s = true ∧ checked u legal run s = respond .unitFaulted 0 s) ∨
    (legal = true ∧ unitFaulted u s = false ∧ checked u legal run s = run s) := by
  unfold checked
  cases legal <;> cases h : unitFaulted u s <;> simp

theorem checked_run {u : UnitName} {run : State → State} {s : State} (h : unitFaulted u s = false) :
    checked u true run s = run s := by simp [checked, h]

theorem checked_faulted {u : UnitName} {run : State → State} {s : State} (h : unitFaulted u s = true) :
    checked u true run s = respond .unitFaulted 0 s := by simp [checked, h]

@[simp] theorem checked_illegal (u : UnitName) (run : State → State) (s : State) :
    checked u false run s = respond .illegalOperand 0 s := by simp [checked]

@[simp] theorem unitFaulted_br {s : State} : unitFaulted .br s = true ↔ s.br.fault ≠ .none := by simp [unitFaulted]
@[simp] theorem unitFaulted_bw {s : State} : unitFaulted .bw s = true ↔ s.bw.fault ≠ .none := by simp [unitFaulted]
@[simp] theorem unitFaulted_geo {s : State} : unitFaulted .geo s = false := rfl

theorem answeredWith_iff {st st' : Status} {d : U32} {s t : State}
    (h : t.responses = s.responses ++ [{ status := st', data := d }]) : answeredWith st s t ↔ st = st' := by
  constructor
  · rintro ⟨d', h'⟩
    rw [h] at h'
    have := List.append_cancel_left h'
    simp at this
    exact this.1.symm
  · rintro rfl
    exact ⟨d, h⟩

/-- The draw of one stream access (log entry 5). -/
theorem drawFail_eq (io : Bool) (ds : List Bool) :
    drawFail io ds = (io && ds.headD false, drawsAfter io ds 1) := by
  cases io <;> simp [drawFail, drawsAfter]

@[simp] theorem drawsAfter_zero (io : Bool) (ds : List Bool) : drawsAfter io ds 0 = ds := by
  cases io <;> simp [drawsAfter]

theorem drawsAfter_add (io : Bool) (ds : List Bool) (a b : Nat) :
    drawsAfter io (drawsAfter io ds a) b = drawsAfter io ds (a + b) := by
  cases io <;> simp [drawsAfter]

theorem passes_zero (io : Bool) (ds : List Bool) : passes io ds 0 := by
  intro _ j hj; omega

theorem passes_mono {io : Bool} {ds : List Bool} {a b : Nat} (h : passes io ds b) (hab : a ≤ b) : passes io ds a :=
  fun hio j hj => h hio j (by omega)

theorem passes_head {io : Bool} {ds : List Bool} {m : Nat} (h : passes io ds m) (hm : 0 < m) :
    (io && ds.headD false) = false := by
  cases io with
  | false => rfl
  | true =>
    have := h rfl 0 hm
    cases ds with
    | nil => rfl
    | cons d ds => cases d <;> simp_all

theorem passes_tail {io : Bool} {ds : List Bool} {m : Nat} (h : passes io ds (m + 1)) :
    passes io (drawsAfter io ds 1) m := by
  intro hio j hj
  have := h hio (j + 1) (by omega)
  simp [drawsAfter, hio, this]

theorem failsAt_zero {io : Bool} {ds : List Bool} (h : failsAt io ds 0) : (io && ds.headD false) = true := by
  obtain ⟨rfl, -, h⟩ := h
  cases ds with
  | nil => simp at h
  | cons d ds => simpa using h

theorem failsAt_passes {io : Bool} {ds : List Bool} {m : Nat} (h : failsAt io ds m) : passes io ds m :=
  fun _ => h.2.1

theorem failsAt_tail {io : Bool} {ds : List Bool} {m : Nat} (h : failsAt io ds (m + 1)) :
    failsAt io (drawsAfter io ds 1) m := by
  obtain ⟨rfl, h1, h2⟩ := h
  refine ⟨rfl, fun j hj => ?_, ?_⟩
  · have := h1 (j + 1) (by omega)
    simpa [drawsAfter, List.getElem?_drop, Nat.add_comm 1 j] using this
  · simpa [drawsAfter, List.getElem?_drop, Nat.add_comm 1 m] using h2

/-- The next octet of a source: a listed one, or a free value of an endless source; and what it leaves alone. -/
theorem nextOctet_some {src src' : Source} {b : Octet} (h : nextOctet src = some (b, src')) :
    src'.octets = src.octets ∧ src'.endless = src.endless ∧ src'.sp = src.sp + 1 ∧
    (src.endless = true ∨ src.sp < src.octets.length) := by
  unfold nextOctet at h
  split at h
  · rename_i _ hb
    obtain ⟨rfl, rfl⟩ := by simpa using h
    exact ⟨rfl, rfl, rfl, .inr (List.getElem?_eq_some_iff.mp hb).1⟩
  · split at h
    · obtain ⟨rfl, rfl⟩ := by simpa using h
      exact ⟨rfl, rfl, rfl, .inl ‹_›⟩
    · simp at h

theorem nextOctet_none {src : Source} : nextOctet src = none ↔ ¬ src.canGive 1 := by
  unfold nextOctet Source.canGive
  split
  · rename_i _ hb
    have := (List.getElem?_eq_some_iff.mp hb).1
    simp; omega
  · rename_i hb
    have := List.getElem?_eq_none_iff.mp hb
    cases src.endless <;> simp; omega

/-- Everything a fetch can do (20_memory.md R51): the draw is used up in each case. -/
theorem srcFetch_eq (s : State) :
    srcFetch s =
      if (s.env.ioFaults && s.env.srcDraws.headD false) = true then
        (.fail, { s with env.srcDraws := drawsAfter s.env.ioFaults s.env.srcDraws 1 })
      else
        match nextOctet s.env.source with
        | some (b, src) =>
          (.octet b, { s with env.source := src, env.srcDraws := drawsAfter s.env.ioFaults s.env.srcDraws 1 })
        | none => (.endOfSource, { s with env.srcDraws := drawsAfter s.env.ioFaults s.env.srcDraws 1 }) := by
  simp only [srcFetch, drawFail_eq] <;> rfl

/-- What a fetch leaves alone, whatever it answers. -/
theorem srcFetch_frame {s t : State} {a : SrcAnswer} (h : srcFetch s = (a, t)) :
    t.br = s.br ∧ t.bw = s.bw ∧ t.port = s.port ∧ t.responses = s.responses ∧ t.env.sink = s.env.sink ∧
    t.env.snkDraws = s.env.snkDraws ∧ t.env.ioFaults = s.env.ioFaults ∧
    t.env.source.octets = s.env.source.octets ∧ t.env.source.endless = s.env.source.endless ∧
    ((∃ b, a = .octet b) ∧ t.env.source.sp = s.env.source.sp + 1 ∧
        (s.env.source.endless = true ∨ s.env.source.sp < s.env.source.octets.length) ∨
      t.env.source = s.env.source) ∧ (a = .fail → s.env.ioFaults = true) := by
  rw [srcFetch_eq] at h
  split at h
  · obtain ⟨rfl, rfl⟩ := by simpa using h
    simp_all
  · split at h
    · rename_i hn
      obtain ⟨rfl, rfl⟩ := by simpa using h
      have := nextOctet_some hn
      simp_all
    · obtain ⟨rfl, rfl⟩ := by simpa using h
      simp

theorem snkEmit_eq (b : Octet) (s : State) :
    snkEmit b s =
      if (s.env.ioFaults && s.env.snkDraws.headD false) = true then
        (.fail, { s with env.snkDraws := drawsAfter s.env.ioFaults s.env.snkDraws 1 })
      else
        (.ok, { s with env.sink := s.env.sink ++ [b], env.snkDraws := drawsAfter s.env.ioFaults s.env.snkDraws 1 }) := by
  simp only [snkEmit, drawFail_eq]

@[simp] theorem snkEmit_frame (b : Octet) (s : State) :
    (snkEmit b s).2.br = s.br ∧ (snkEmit b s).2.bw = s.bw ∧ (snkEmit b s).2.port = s.port ∧
    (snkEmit b s).2.responses = s.responses ∧ (snkEmit b s).2.env.source = s.env.source ∧
    (snkEmit b s).2.env.srcDraws = s.env.srcDraws ∧ (snkEmit b s).2.env.ioFaults = s.env.ioFaults := by
  rw [snkEmit_eq]; split <;> simp

end Sys2Proof.Machine
end

