-- ==== Sys2Proof/Laws/Codec.lean ====
section
/-! SUPPORT. Codec.lean: what the host's accesses to its character streams can do (43_host_codec.md R199). -/

namespace Sys2Proof.Machine

variable (go : CodecRun → CodecRun) (r : CodecRun)

@[simp] theorem CodecRun.fail_out (b : State) (e : HostError) : (r.fail b e).out = r.out := rfl
@[simp] theorem CodecRun.fail_charDraws (b : State) (e : HostError) : (r.fail b e).charDraws = r.charDraws := rfl
@[simp] theorem CodecRun.fail_block (b : State) (e : HostError) : (r.fail b e).block = b := rfl
@[simp] theorem CodecRun.fail_ending (b : State) (e : HostError) : (r.fail b e).ending = .failed e := rfl

@[simp] theorem CodecRun.finish_out : r.finish.out = r.out := by unfold CodecRun.finish; split <;> rfl
@[simp] theorem CodecRun.finish_charDraws : r.finish.charDraws = r.charDraws := by unfold CodecRun.finish; split <;> rfl
@[simp] theorem CodecRun.finish_block : r.finish.block = r.block := by unfold CodecRun.finish; split <;> rfl

/-- Everything an access to a character stream can do: it fails with `Io` and changes nothing but the draws, or goes on. -/
theorem CodecRun.charAccess_eq :
    r.charAccess go =
      if r.charDraws.headD false = true then
        { r with charDraws := r.charDraws.tail, ending := .failed .io }
      else go { r with charDraws := r.charDraws.tail } := by
  simp [CodecRun.charAccess, drawFail, CodecRun.fail]

theorem CodecRun.charAccess_pass (h : r.charDraws.headD false = false) :
    r.charAccess go = go { r with charDraws := r.charDraws.tail } := by
  rw [CodecRun.charAccess_eq, h]; simp

theorem CodecRun.charAccess_fail (h : r.charDraws.headD false = true) :
    r.charAccess go = { r with charDraws := r.charDraws.tail, ending := .failed .io } := by
  rw [CodecRun.charAccess_eq, h]; simp

/-- Writing one character: it is appended, or the operation fails with `Io` and what was written stays. -/
theorem CodecRun.emit_eq (c : Nat) :
    r.emit c =
      if r.charDraws.headD false = true then
        { r with charDraws := r.charDraws.tail, ending := .failed .io }
      else { r with charDraws := r.charDraws.tail, out := r.out ++ [c] } := by
  rw [CodecRun.emit, CodecRun.charAccess_eq]

@[simp] theorem CodecRun.emit_block (c : Nat) : (r.emit c).block = r.block := by
  rw [CodecRun.emit_eq]; split <;> rfl

@[simp] theorem CodecRun.emitAll_nil : r.emitAll [] = r := rfl

/-- Writing characters touches no block, and keeps what was written before. -/
theorem CodecRun.emitAll_frame (cs : List Nat) : (r.emitAll cs).block = r.block ∧ r.out <+: (r.emitAll cs).out := by
  induction cs generalizing r with
  | nil => simp
  | cons c cs ih =>
    rw [CodecRun.emitAll]
    split
    · obtain ⟨h1, h2⟩ := ih (r.emit c)
      refine ⟨by rw [h1, CodecRun.emit_block], .trans ?_ h2⟩
      rw [CodecRun.emit_eq]; split <;> simp
    · simp

end Sys2Proof.Machine
end

