-- ==== Sys2Proof/Laws/Decode.lean ====
section
/-! SUPPORT. Decode.lean: decoding in terms of recognising (30_encoding.md R92), and the two operand checks, the one of the
syntax and the one of the machine, agree (R85). -/

namespace Sys2Proof

theorem decode_of_recognise_none {w : CmdWord} (h : recognise w = none) : decode w = .error .illegalCommand := by
  simp [decode, h]

theorem decode_eq_ok {w : CmdWord} {i : Instr} :
    decode w = .ok i ↔ recognise w = some i ∧ i.wellFormed = true := by
  unfold decode
  cases h : recognise w with
  | none => simp
  | some j =>
    cases hj : j.wellFormed
    · simp only [hj]; aesop
    · simp only [hj]; aesop

theorem decode_eq_illegalOperand {w : CmdWord} :
    decode w = .error .illegalOperand ↔ ∃ i, recognise w = some i ∧ i.wellFormed = false := by
  unfold decode
  cases h : recognise w with
  | none => simp
  | some j => cases hj : j.wellFormed <;> simp [hj]

theorem decode_eq_illegalCommand {w : CmdWord} :
    decode w = .error .illegalCommand ↔ recognise w = none := by
  unfold decode
  cases h : recognise w with
  | none => simp
  | some j => cases hj : j.wellFormed <;> simp [hj]

@[simp] theorem wellFormed_rdu (n : BitVec 6) : (Instr.rdu n).wellFormed = Machine.rduOperandLegal n := rfl
@[simp] theorem wellFormed_wru (n : BitVec 4) (v : BitVec 8) :
    (Instr.wru n v).wellFormed = Machine.wruOperandLegal n v := rfl
@[simp] theorem wellFormed_fin : Instr.fin.wellFormed = true := rfl
@[simp] theorem wellFormed_geo (N : BitVec 8) : (Instr.geo N).wellFormed = true := rfl

end Sys2Proof

namespace Sys2Proof.Machine

theorem rduOperandLegal_iff {n : BitVec 6} : rduOperandLegal n = true ↔ 1 ≤ n.toNat ∧ n.toNat ≤ 32 := by
  simp [rduOperandLegal]

theorem wruOperandLegal_iff {n : BitVec 4} {v : BitVec 8} :
    wruOperandLegal n v = true ↔ 1 ≤ n.toNat ∧ n.toNat ≤ 8 ∧ v.toNat < 2 ^ n.toNat := by
  simp [wruOperandLegal, and_assoc]

/-- A command whose operands are out of range is answered `IllegalOperand` whatever the state (R85, 60_exceptions.md R234). -/
theorem exec_illFormed {i : Instr} (h : i.wellFormed = false) (s : State) :
    exec i s = .next (respond .illegalOperand 0 s) := by
  cases i with
  | rdu n => rw [wellFormed_rdu] at h; simp [exec, execRdu, checked, raise, recordFault, h]
  | wru n v => rw [wellFormed_wru] at h; simp [exec, execWru, checked, raise, recordFault, h]
  | fin => simp at h
  | geo N => simp at h

end Sys2Proof.Machine
end

