-- ==== Sys2Proof/Laws/Encoding.lean ====
section
/-! SUPPORT. Encoding.lean: the fields of a command word and the words of the commands, as numbers (30_encoding.md R81, R82). -/

namespace Sys2Proof

theorem opField_toNat (w : CmdWord) : (opField w).toNat = w.toNat / 4096 := by
  have := w.isLt
  simp [opField, Nat.shiftRight_eq_div_pow]; omega

theorem highField_toNat (w : CmdWord) : (highField w).toNat = w.toNat / 256 % 16 := by
  simp [highField, Nat.shiftRight_eq_div_pow]

theorem midField_toNat (w : CmdWord) : (midField w).toNat = w.toNat / 64 % 4 := by
  simp [midField, Nat.shiftRight_eq_div_pow]

theorem lowField_toNat (w : CmdWord) : (lowField w).toNat = w.toNat % 64 := by
  simp [lowField]

theorem byteField_toNat (w : CmdWord) : (byteField w).toNat = w.toNat % 256 := by
  simp [byteField]

theorem append_toNat {a b : Nat} (x : BitVec a) (y : BitVec b) : (x ++ y).toNat = x.toNat * 2 ^ b + y.toNat := by
  rw [BitVec.toNat_append, ← Nat.shiftLeft_add_eq_or_of_lt y.isLt, Nat.shiftLeft_eq]

theorem encode_rdu_toNat (n : BitVec 6) : (encode (.rdu n)).toNat = 0x1000 + n.toNat := by
  simp only [encode, append_toNat]; simp

theorem encode_wru_toNat (n : BitVec 4) (v : BitVec 8) :
    (encode (.wru n v)).toNat = 0x2000 + 256 * n.toNat + v.toNat := by
  simp only [encode, append_toNat]; simp; omega

theorem encode_fin_toNat : (encode .fin).toNat = 0x3000 := by decide

theorem encode_geo_toNat (N : BitVec 8) : (encode (.geo N)).toNat = 0x4000 + N.toNat := by
  simp only [encode, append_toNat]; simp

end Sys2Proof
end

