-- ==== Sys2Proof/Laws/PerInstr.lean ====
section
/-! SUPPORT. PerInstr.lean: statements about the commands as syntax, one lemma per constructor. -/

/-- A command's word has the opcode of its row in `cmd[15:12]` (30_encoding.md R83). -/
def Sys2Proof.Laws.OpcodeField.Statement (i : Sys2Proof.Instr) : Prop :=
  (Sys2Proof.opField (Sys2Proof.encode i)).toNat =
    match i with
    | .rdu _ => 1
    | .wru _ _ => 2
    | .fin => 3
    | .geo _ => 4

theorem Sys2Proof.Laws.OpcodeField.rdu (n : BitVec 6) : Sys2Proof.Laws.OpcodeField.Statement (.rdu n) := by
  simp only [Sys2Proof.Laws.OpcodeField.Statement, Sys2Proof.opField_toNat, Sys2Proof.encode_rdu_toNat]
  omega

theorem Sys2Proof.Laws.OpcodeField.wru (n : BitVec 4) (v : BitVec 8) :
    Sys2Proof.Laws.OpcodeField.Statement (.wru n v) := by
  simp only [Sys2Proof.Laws.OpcodeField.Statement, Sys2Proof.opField_toNat, Sys2Proof.encode_wru_toNat]
  omega

theorem Sys2Proof.Laws.OpcodeField.fin : Sys2Proof.Laws.OpcodeField.Statement .fin := by
  simp only [Sys2Proof.Laws.OpcodeField.Statement, Sys2Proof.opField_toNat, Sys2Proof.encode_fin_toNat]

theorem Sys2Proof.Laws.OpcodeField.geo (N : BitVec 8) : Sys2Proof.Laws.OpcodeField.Statement (.geo N) := by
  simp only [Sys2Proof.Laws.OpcodeField.Statement, Sys2Proof.opField_toNat, Sys2Proof.encode_geo_toNat]
  omega
end

