-- ==== Sys2Proof/Laws/Streams.lean ====
section
/-! SUPPORT. Streams.lean: what a source will still give (20_memory.md R51, R61). -/

namespace Sys2Proof.Machine

theorem canGive_zero {src : Source} (h : src.endless = false → src.sp ≤ src.octets.length) : src.canGive 0 := by
  unfold Source.canGive
  cases he : src.endless
  · exact .inr (h he)
  · exact .inl rfl

theorem canGive_mono {src : Source} {a b : Nat} (h : src.canGive b) (hab : a ≤ b) : src.canGive a :=
  h.imp_right fun h => by omega

/-- A source that can give m + 1 octets gives one and can then give m. -/
theorem canGive_succ {src : Source} {m : Nat} (h : src.canGive (m + 1)) :
    ∃ b src', nextOctet src = some (b, src') ∧ src'.canGive m := by
  cases hn : nextOctet src with
  | none => exact absurd (canGive_mono h (by omega)) (nextOctet_none.mp hn)
  | some p =>
    obtain ⟨b, src'⟩ := p
    obtain ⟨h1, h2, h3, -⟩ := nextOctet_some hn
    refine ⟨b, src', rfl, ?_⟩
    unfold Source.canGive at *
    rw [h1, h2, h3]
    exact h.imp_right fun h => by omega

theorem not_canGive_succ {src src' : Source} {b : Octet} {m : Nat} (hn : nextOctet src = some (b, src'))
    (h : ¬ src.canGive (m + 1)) : ¬ src'.canGive m := by
  obtain ⟨h1, h2, h3, -⟩ := nextOctet_some hn
  unfold Source.canGive at *
  rw [h1, h2, h3]
  intro hc
  exact h (hc.imp_right fun hc => by omega)

@[simp] theorem upcoming_zero (src : Source) : upcoming 0 src = [] := rfl

theorem upcoming_succ {src src' : Source} {b : Octet} (m : Nat) (h : nextOctet src = some (b, src')) :
    upcoming (m + 1) src = b :: upcoming m src' := by simp [upcoming, h]

@[simp] theorem sourceAfter_zero (src : Source) : sourceAfter 0 src = src := rfl

theorem sourceAfter_succ {src src' : Source} {b : Octet} (m : Nat) (h : nextOctet src = some (b, src')) :
    sourceAfter (m + 1) src = sourceAfter m src' := by simp [sourceAfter, h]

theorem upcoming_length {m : Nat} {src : Source} (h : src.canGive m) : (upcoming m src).length = m := by
  induction m generalizing src with
  | zero => rfl
  | succ m ih =>
    obtain ⟨b, src', hn, hc⟩ := canGive_succ h
    rw [upcoming_succ m hn, List.length_cons, ih hc]

/-- What taking m octets leaves alone, and how far it moves the position. -/
theorem sourceAfter_frame (m : Nat) (src : Source) :
    (sourceAfter m src).octets = src.octets ∧ (sourceAfter m src).endless = src.endless ∧
    (src.canGive m → (sourceAfter m src).sp = src.sp + m) := by
  induction m generalizing src with
  | zero => simp
  | succ m ih =>
    cases hn : nextOctet src with
    | none =>
      refine ⟨by simp [sourceAfter, hn], by simp [sourceAfter, hn], fun h => ?_⟩
      exact absurd (canGive_mono h (by omega)) (nextOctet_none.mp hn)
    | some p =>
      obtain ⟨b, src'⟩ := p
      obtain ⟨h1, h2, h3, -⟩ := nextOctet_some hn
      obtain ⟨i1, i2, i3⟩ := ih src'
      rw [sourceAfter_succ m hn, i1, i2, h1, h2]
      refine ⟨rfl, rfl, fun h => ?_⟩
      obtain ⟨_, _, hn', hc⟩ := canGive_succ h
      rw [hn] at hn'
      obtain ⟨rfl, rfl⟩ := by simpa using hn'
      rw [i3 hc, h3]; omega

theorem upcoming_add (a b : Nat) (src : Source) (h : src.canGive a) :
    upcoming (a + b) src = upcoming a src ++ upcoming b (sourceAfter a src) := by
  induction a generalizing src with
  | zero => simp
  | succ a ih =>
    obtain ⟨o, src', hn, hc⟩ := canGive_succ h
    rw [show a + 1 + b = (a + b) + 1 by omega, upcoming_succ _ hn, upcoming_succ _ hn, sourceAfter_succ _ hn, ih src' hc]
    rfl

theorem sourceAfter_add (a b : Nat) (src : Source) (h : src.canGive a) :
    sourceAfter (a + b) src = sourceAfter b (sourceAfter a src) := by
  induction a generalizing src with
  | zero => simp
  | succ a ih =>
    obtain ⟨o, src', hn, hc⟩ := canGive_succ h
    rw [show a + 1 + b = (a + b) + 1 by omega, sourceAfter_succ _ hn, sourceAfter_succ _ hn, ih src' hc]

theorem canGive_add {a b : Nat} {src : Source} (h : src.canGive a) :
    src.canGive (a + b) ↔ (sourceAfter a src).canGive b := by
  obtain ⟨h1, h2, h3⟩ := sourceAfter_frame a src
  unfold Source.canGive at *
  rw [h1, h2, h3 h]
  simp [Nat.add_assoc]

/-- On a finite source the coming octets are the listed ones from the position on (R51, R55). -/
theorem upcoming_eq_take_drop (m : Nat) (src : Source) (h : src.endless = false) :
    upcoming m src = (src.octets.drop src.sp).take m := by
  induction m generalizing src with
  | zero => simp
  | succ m ih =>
    cases hb : src.octets[src.sp]? with
    | none =>
      have : nextOctet src = none := by simp [nextOctet, hb, h]
      have hl := List.getElem?_eq_none_iff.mp hb
      simp [upcoming, this, List.drop_eq_nil_of_le hl]
    | some b =>
      have hn : nextOctet src = some (b, { src with sp := src.sp + 1 }) := by simp [nextOctet, hb]
      have hd := List.drop_eq_getElem?_toList_append (l := src.octets) (i := src.sp)
      rw [upcoming_succ m hn, ih { src with sp := src.sp + 1 } h]
      simp [hd, hb]

end Sys2Proof.Machine
end

