-- ==== Sys2Proof/Laws/Reader.lean ====
section
/-! SUPPORT. Reader.lean: everything the loop of RDU can do (41_bit_reader.md R130 to R140), said once for each of its four ends. -/

namespace Sys2Proof.Machine

/-- The state a read leaves that took m octets from the source in `accesses` fetches and ended with the given cursor. -/
abbrev afterFetches (m accesses : Nat) (cursor : Cursor) (s : State) : State :=
  { s with br.buf := (upcoming m s.env.source).getLastD s.br.buf
           br.bitsLeft := cursor
           env.source := sourceAfter m s.env.source
           env.srcDraws := drawsAfter s.env.ioFaults s.env.srcDraws accesses }

theorem finishRead_eq {acc need : Nat} {s : State} (h : need ≤ s.br.bitsLeft.toNat) :
    finishRead acc need s =
      respond .ok (BitVec.ofNat 32 (acc * 2 ^ need + natOfBits (s.br.unconsumed.take need)))
        { s with br.bitsLeft := BitVec.ofNat 4 (s.br.bitsLeft.toNat - need) } := by
  have hlt : topUnconsumed s.br.buf s.br.bitsLeft.toNat need < 2 ^ need := Nat.mod_lt _ (Nat.two_pow_pos need)
  rw [finishRead, ← Nat.shiftLeft_add_eq_or_of_lt hlt, Nat.shiftLeft_eq, topUnconsumed_eq_natOfBits h]
  rfl

theorem srcFetch_octet {s : State} {b : Octet} {src' : Source} {m : Nat}
    (hp : passes s.env.ioFaults s.env.srcDraws (m + 1)) (hn : nextOctet s.env.source = some (b, src')) :
    srcFetch s =
      (.octet b, { s with env.source := src', env.srcDraws := drawsAfter s.env.ioFaults s.env.srcDraws 1 }) := by
  rw [srcFetch_eq, passes_head hp (by omega), hn]
  rfl

theorem srcFetch_end {s : State} {m : Nat}
    (hp : passes s.env.ioFaults s.env.srcDraws (m + 1)) (hn : ¬ s.env.source.canGive 1) :
    srcFetch s = (.endOfSource, { s with env.srcDraws := drawsAfter s.env.ioFaults s.env.srcDraws 1 }) := by
  rw [srcFetch_eq, passes_head hp (by omega), nextOctet_none.mpr hn]
  rfl

theorem srcFetch_fail {s : State} (hf : failsAt s.env.ioFaults s.env.srcDraws 0) :
    srcFetch s = (.fail, { s with env.srcDraws := drawsAfter s.env.ioFaults s.env.srcDraws 1 }) := by
  rw [srcFetch_eq, failsAt_zero hf]
  rfl

theorem getLastD_cons {α : Type} (b d : α) (l : List α) : (b :: l).getLastD d = l.getLastD b := by
  cases l <;> rfl

/-- The loop ends with `OK`: it takes `whole + 1` octets, and the result is the bits gathered before followed by the first `need`
bits of those octets (R132, R135). -/
theorem fetchRest_ok (whole acc need : Nat) (got : Bool) (s : State) (h1 : 8 * whole < need) (h2 : need ≤ 8 * whole + 8)
    (hc : s.env.source.canGive (whole + 1)) (hp : passes s.env.ioFaults s.env.srcDraws (whole + 1)) :
    fetchRest whole acc need got s =
      respond .ok
        (BitVec.ofNat 32 (acc * 2 ^ need + natOfBits ((bitsOf (upcoming (whole + 1) s.env.source)).take need)))
        (afterFetches (whole + 1) (whole + 1) (BitVec.ofNat 4 (8 * (whole + 1) - need)) s) := by
  induction whole generalizing acc need got s with
  | zero =>
    obtain ⟨b, src', hn, -⟩ := canGive_succ hc
    rw [fetchRest, srcFetch_octet hp hn]
    have hle : need ≤ (fillBuffer b { s with env.source := src', env.srcDraws := drawsAfter s.env.ioFaults s.env.srcDraws 1 }).br.bitsLeft.toNat := by
      simp [fillBuffer]; omega
    simp only [finishRead_eq hle]
    simp [afterFetches, upcoming_succ 0 hn, sourceAfter_succ 0 hn, fillBuffer, BitReader.unconsumed]
  | succ whole ih =>
    obtain ⟨b, src', hn, hc'⟩ := canGive_succ hc
    rw [fetchRest, srcFetch_octet hp hn]
    simp only
    rw [ih _ _ _ _ (by omega) (by omega) (by exact hc') (by exact passes_tail hp)]
    have hb : b.toNat < 2 ^ 8 := b.isLt
    have hval : (acc <<< 8 ||| b.toNat) * 2 ^ (need - 8) +
          natOfBits ((bitsOf (upcoming (whole + 1) src')).take (need - 8)) =
        acc * 2 ^ need + natOfBits ((bitsOf (upcoming (whole + 1 + 1) s.env.source)).take need) := by
      have ht : (natBits 8 b.toNat).take need = natBits 8 b.toNat := List.take_of_length_le (by simp; omega)
      rw [upcoming_succ (whole + 1) hn, bitsOf_cons, List.take_append, natBits_length, ht, natOfBits_append,
        natOfBits_natBits,
        ← Nat.shiftLeft_add_eq_or_of_lt hb, Nat.shiftLeft_eq, Nat.mod_eq_of_lt hb, List.length_take,
        bitsOf_length, upcoming_length hc', Nat.min_eq_left (by omega)]
      have : 2 ^ need = 2 ^ 8 * 2 ^ (need - 8) := by rw [← pow_add]; congr 1; omega
      rw [this]; ring
    simp only [hval]
    simp only [afterFetches, upcoming_succ (whole + 1) hn, sourceAfter_succ (whole + 1) hn, getLastD_cons,
      drawsAfter_add]
    rw [Nat.add_comm 1 (whole + 1), show 8 * (whole + 1) - (need - 8) = 8 * (whole + 1 + 1) - need by omega]

/-- The loop meets the end of the source after m octets (R133, R134). -/
theorem fetchRest_end (m whole acc need : Nat) (got : Bool) (s : State) (hm : m ≤ whole) (hb : s.br.bitsLeft = 0)
    (hc : 0 < m → s.env.source.canGive m) (hn : ¬ s.env.source.canGive (m + 1))
    (hp : passes s.env.ioFaults s.env.srcDraws (m + 1)) :
    fetchRest whole acc need got s =
      raise .br (if got = true ∨ 0 < m then .unexpectedEndOfStream else .endOfStream)
        (afterFetches m (m + 1) 0 s) := by
  induction m generalizing whole acc need got s with
  | zero =>
    rw [fetchRest, srcFetch_end hp hn]
    cases got <;> simp [afterFetches, ← hb, List.getLastD]
  | succ m ih =>
    obtain ⟨b, src', ho, hc'⟩ := canGive_succ (hc (by omega))
    obtain ⟨k, rfl⟩ : ∃ k, whole = k + 1 := ⟨whole - 1, by omega⟩
    rw [fetchRest, srcFetch_octet hp ho]
    simp only
    rw [ih _ _ _ _ _ (by omega) rfl (fun _ => by exact hc') (by exact not_canGive_succ ho hn) (by exact passes_tail hp)]
    simp only [afterFetches, upcoming_succ m ho, sourceAfter_succ m ho, getLastD_cons, drawsAfter_add]
    rw [Nat.add_comm 1 (m + 1)]
    simp

/-- The loop meets a failing fetch after m octets (R140). -/
theorem fetchRest_fail (m whole acc need : Nat) (got : Bool) (s : State) (hm : m ≤ whole) (hb : s.br.bitsLeft = 0)
    (hc : 0 < m → s.env.source.canGive m) (hf : failsAt s.env.ioFaults s.env.srcDraws m) :
    fetchRest whole acc need got s = raise .br .io (afterFetches m (m + 1) 0 s) := by
  induction m generalizing whole acc need got s with
  | zero =>
    rw [fetchRest, srcFetch_fail hf]
    simp [afterFetches, ← hb, List.getLastD]
  | succ m ih =>
    obtain ⟨b, src', ho, hc'⟩ := canGive_succ (hc (by omega))
    obtain ⟨k, rfl⟩ : ∃ k, whole = k + 1 := ⟨whole - 1, by omega⟩
    rw [fetchRest, srcFetch_octet (passes_mono (failsAt_passes hf) (Nat.le_refl _)) ho]
    simp only
    rw [ih _ _ _ _ _ (by omega) rfl (fun _ => by exact hc') (by exact failsAt_tail hf)]
    simp only [afterFetches, upcoming_succ m ho, sourceAfter_succ m ho, getLastD_cons, drawsAfter_add]
    rw [Nat.add_comm 1 (m + 1)]

theorem readBits_buffered {n : Nat} {s : State} (h : n ≤ s.br.bitsLeft.toNat) : readBits n s = finishRead 0 n s := by
  simp [readBits, h]

theorem readBits_spanning {n : Nat} {s : State} (h : s.br.bitsLeft.toNat < n) :
    readBits n s =
      fetchRest ((n - s.br.bitsLeft.toNat - 1) / 8) (natOfBits s.br.unconsumed) (n - s.br.bitsLeft.toNat)
        (decide (0 < s.br.bitsLeft.toNat)) { s with br.bitsLeft := 0 } := by
  have ht : topUnconsumed s.br.buf s.br.bitsLeft.toNat s.br.bitsLeft.toNat = natOfBits s.br.unconsumed := by
    rw [topUnconsumed_eq_natOfBits (Nat.le_refl _), List.take_of_length_le (by simp)]
    rfl
  simp only [readBits, if_neg (show ¬ n ≤ s.br.bitsLeft.toNat by omega), ht]

theorem fetchCount_eq_zero {n left : Nat} (h : n ≤ left) : fetchCount n left = 0 := by
  simp [fetchCount, h]

theorem fetchCount_spanning {n left : Nat} (h : left < n) : fetchCount n left = (n - left - 1) / 8 + 1 := by
  rw [fetchCount, if_neg (by omega)]; omega

theorem fetchCount_pos {n left m : Nat} (h : m < fetchCount n left) : left < n := by
  by_contra hn
  rw [fetchCount_eq_zero (by omega)] at h
  omega

/-- A read the source can serve: the first n of the unconsumed bits followed by the fetched ones (R131, R132, R137). -/
theorem readBits_ok {n : Nat} {s : State}
    (hc : 0 < fetchCount n s.br.bitsLeft.toNat → s.env.source.canGive (fetchCount n s.br.bitsLeft.toNat))
    (hp : passes s.env.ioFaults s.env.srcDraws (fetchCount n s.br.bitsLeft.toNat)) :
    readBits n s =
      respond .ok
        (BitVec.ofNat 32
          (natOfBits ((s.br.unconsumed ++ bitsOf (upcoming (fetchCount n s.br.bitsLeft.toNat) s.env.source)).take n)))
        (afterFetches (fetchCount n s.br.bitsLeft.toNat) (fetchCount n s.br.bitsLeft.toNat)
          (BitVec.ofNat 4 (8 * fetchCount n s.br.bitsLeft.toNat + s.br.bitsLeft.toNat - n)) s) := by
  by_cases h : n ≤ s.br.bitsLeft.toNat
  · rw [readBits_buffered h, finishRead_eq h, fetchCount_eq_zero h]
    simp [afterFetches, List.getLastD]
  · have hlt : s.br.bitsLeft.toNat < n := by omega
    replace hc := hc (by rw [fetchCount_spanning hlt]; omega)
    have hu : s.br.unconsumed.take n = s.br.unconsumed := List.take_of_length_le (by rw [unconsumed_length]; omega)
    rw [List.take_append, natOfBits_append, hu, List.length_take, bitsOf_length, upcoming_length hc, unconsumed_length]
    rw [fetchCount_spanning hlt] at hc hp ⊢
    rw [readBits_spanning hlt, fetchRest_ok _ _ _ _ _ (by omega) (by omega) (by exact hc) (by exact hp),
      Nat.min_eq_left (by omega),
      show 8 * ((n - s.br.bitsLeft.toNat - 1) / 8 + 1) - (n - s.br.bitsLeft.toNat) =
        8 * ((n - s.br.bitsLeft.toNat - 1) / 8 + 1) + s.br.bitsLeft.toNat - n by omega]

/-- A read that meets the end of the source after m octets (R133, R134). -/
theorem readBits_end {n m : Nat} {s : State} (hlt : m < fetchCount n s.br.bitsLeft.toNat)
    (hc : 0 < m → s.env.source.canGive m) (hn : ¬ s.env.source.canGive (m + 1))
    (hp : passes s.env.ioFaults s.env.srcDraws (m + 1)) :
    readBits n s =
      raise .br (if 0 < s.br.bitsLeft.toNat + m then .unexpectedEndOfStream else .endOfStream)
        (afterFetches m (m + 1) 0 s) := by
  have hl := fetchCount_pos hlt
  rw [fetchCount_spanning hl] at hlt
  have hi : (decide (0 < s.br.bitsLeft.toNat) = true ∨ 0 < m) ↔ 0 < s.br.bitsLeft.toNat + m := by
    rw [decide_eq_true_eq]; omega
  rw [readBits_spanning hl, fetchRest_end m _ _ _ _ { s with br.bitsLeft := 0 } (by omega) rfl hc hn hp]
  simp only [hi]

/-- A read one of whose fetches fails after m octets (R140). -/
theorem readBits_fail {n m : Nat} {s : State} (hlt : m < fetchCount n s.br.bitsLeft.toNat)
    (hc : 0 < m → s.env.source.canGive m) (hf : failsAt s.env.ioFaults s.env.srcDraws m) :
    readBits n s = raise .br .io (afterFetches m (m + 1) 0 s) := by
  have hl := fetchCount_pos hlt
  rw [fetchCount_spanning hl] at hlt
  rw [readBits_spanning hl, fetchRest_fail m _ _ _ _ { s with br.bitsLeft := 0 } (by omega) rfl hc hf]

/-- A sequence of f fetches either succeeds, or meets the end of the source, or meets a failing fetch. -/
theorem fetches_cases (f : Nat) (src : Source) (io : Bool) (ds : List Bool) :
    ((0 < f → src.canGive f) ∧ passes io ds f) ∨
    (∃ m < f, (0 < m → src.canGive m) ∧ ¬ src.canGive (m + 1) ∧ passes io ds (m + 1)) ∨
    (∃ m < f, (0 < m → src.canGive m) ∧ failsAt io ds m) := by
  induction f with
  | zero => exact .inl ⟨by omega, passes_zero _ _⟩
  | succ f ih =>
    rcases ih with ⟨hc, hp⟩ | ⟨m, hm, h⟩ | ⟨m, hm, h⟩
    · by_cases hd : io = true ∧ ds[f]? = some true
      · exact .inr (.inr ⟨f, by omega, hc, hd.1, fun j hj => hp hd.1 j hj, hd.2⟩)
      · have hp' : passes io ds (f + 1) := fun hio j hj => by
          rcases Nat.lt_succ_iff_lt_or_eq.mp hj with h | rfl
          · exact hp hio j h
          · exact fun h => hd ⟨hio, h⟩
        by_cases hg : src.canGive (f + 1)
        · exact .inl ⟨fun _ => hg, hp'⟩
        · exact .inr (.inl ⟨f, by omega, hc, hg, hp'⟩)
    · exact .inr (.inl ⟨m, by omega, h⟩)
    · exact .inr (.inr ⟨m, by omega, h⟩)

/-- What a read that takes at most `k` fetches can do to the machine, whatever it answers: it stays in its unit, moves the source
forward by at most k, answers once, and sets the fault register as its answer says. -/
structure ReadEffect (k : Nat) (s t : State) : Prop where
  bw : t.bw = s.bw
  port : t.port = s.port
  sink : t.env.sink = s.env.sink
  snkDraws : t.env.snkDraws = s.env.snkDraws
  ioFaults : t.env.ioFaults = s.env.ioFaults
  octets : t.env.source.octets = s.env.source.octets
  endless : t.env.source.endless = s.env.source.endless
  sp_ge : s.env.source.sp ≤ t.env.source.sp
  sp_le : t.env.source.sp ≤ s.env.source.sp + k
  sp_end : (s.env.source.endless = false → s.env.source.sp ≤ s.env.source.octets.length) →
    s.env.source.endless = false → t.env.source.sp ≤ s.env.source.octets.length
  answer : ∃ r, t.responses = s.responses ++ [r] ∧
    r.status ∈ [Status.ok, .endOfStream, .unexpectedEndOfStream, .io] ∧
    (r.data ≠ 0 → r.status = .ok) ∧ (r.status = .io → s.env.ioFaults = true) ∧
    t.br.fault =
      (match r.status with
        | .unexpectedEndOfStream => .unexpectedEndOfStream
        | .io => .io
        | _ => s.br.fault)

theorem finishRead_effect (acc need : Nat) (s : State) : ReadEffect 0 s (finishRead acc need s) := by
  constructor <;> simp [finishRead]

theorem raise_effect (st : Status) (s : State) (h : st ∈ [Status.endOfStream, .unexpectedEndOfStream, .io])
    (hio : st = .io → s.env.ioFaults = true) : ReadEffect 0 s (raise .br st s) := by
  have ha := raise_br_fault st s
  constructor <;> try simp
  case answer =>
    refine ⟨by aesop, hio, ?_⟩
    exact ha.trans (by cases st <;> rfl)

/-- A read's effect from a state that differs from `s` only in the reader's registers, the source and the draws. -/
theorem ReadEffect.of_fetch {k : Nat} {s s1 t : State} {a : SrcAnswer} (hf : srcFetch s = (a, s1)) {br : BitReader}
    (hbr : br.fault = s1.br.fault) (h : ReadEffect k { s1 with br := br } t) : ReadEffect (k + 1) s t := by
  obtain ⟨f1, f2, f3, f4, f5, f6, f7, f8, f9, f10, -⟩ := srcFetch_frame hf
  obtain ⟨h1, h2, h3, h4, h5, h6, h7, h8, h9, h10, h11⟩ := h
  have hsp : s.env.source.sp ≤ s1.env.source.sp ∧ s1.env.source.sp ≤ s.env.source.sp + 1 := by
    rcases f10 with ⟨-, h, -⟩ | h
    · omega
    · rw [h]; omega
  simp only at *
  refine ⟨by simp_all, by simp_all, by simp_all, by simp_all, by simp_all, by simp_all, by simp_all, by omega, by omega, ?_, ?_⟩
  · intro hs he
    rw [f8, f9] at h10
    refine h10 (fun _ => ?_) he
    rcases f10 with ⟨-, h, h'⟩ | h
    · rw [h]; rcases h' with h' | h'
      · simp [he] at h'
      · omega
    · rw [h]; exact hs he
  · rw [← f7, ← f4, ← f1, ← hbr]; exact h11

theorem ReadEffect.mono {k l : Nat} {s t : State} (h : ReadEffect k s t) (hkl : k ≤ l) : ReadEffect l s t :=
  { h with sp_le := by have := h.sp_le; omega }

theorem fetchRest_effect (whole acc need : Nat) (got : Bool) (s : State) :
    ReadEffect (whole + 1) s (fetchRest whole acc need got s) := by
  induction whole generalizing acc need got s with
  | zero =>
    rw [fetchRest]
    split
    · rename_i b s1 hf
      exact .of_fetch hf (br := { s1.br with buf := b, bitsLeft := 8 }) rfl (finishRead_effect _ _ _)
    · rename_i s1 hf
      refine .of_fetch hf (br := s1.br) rfl ?_
      split <;> exact raise_effect _ _ (by simp) (by simp)
    · rename_i s1 hf
      have hio := (srcFetch_frame hf)
      exact .of_fetch hf (br := s1.br) rfl (raise_effect _ _ (by simp) (by simp_all))
  | succ whole ih =>
    rw [fetchRest]
    split
    · rename_i b s1 hf
      exact .of_fetch hf (br := { s1.br with buf := b, bitsLeft := 0 }) rfl (ih _ _ _ _)
    · rename_i s1 hf
      refine .mono (.of_fetch (k := 0) hf (br := s1.br) rfl ?_) (by omega)
      split <;> exact raise_effect _ _ (by simp) (by simp)
    · rename_i s1 hf
      have hio := (srcFetch_frame hf)
      exact .mono (.of_fetch (k := 0) hf (br := s1.br) rfl (raise_effect _ _ (by simp) (by simp_all))) (by omega)

/-- Everything a read of at most 32 bits can do outside the value it answers: at most four fetches (R59, R137). -/
theorem readBits_effect {n : Nat} (h : n ≤ 32) (s : State) : ReadEffect 4 s (readBits n s) := by
  simp only [readBits]
  split
  · exact (finishRead_effect _ _ _).mono (by omega)
  · have h := fetchRest_effect ((n - s.br.bitsLeft.toNat - 1) / 8) (topUnconsumed s.br.buf s.br.bitsLeft.toNat s.br.bitsLeft.toNat)
      (n - s.br.bitsLeft.toNat) (decide (0 < s.br.bitsLeft.toNat)) { s with br.bitsLeft := 0 }
    have h4 : (n - s.br.bitsLeft.toNat - 1) / 8 + 1 ≤ 4 := by omega
    obtain ⟨a1, a2, a3, a4, a5, a6, a7, a8, a9, a10, a11⟩ := h.mono h4
    exact ⟨a1, a2, a3, a4, a5, a6, a7, a8, a9, a10, a11⟩

/-- The cursor after a read is in [0, 7] (R33). -/
theorem fetchRest_bitsLeft (whole acc need : Nat) (got : Bool) (s : State) (h1 : 8 * whole < need)
    (h2 : need ≤ 8 * whole + 8) (hb : s.br.bitsLeft = 0) : (fetchRest whole acc need got s).br.bitsLeft.toNat ≤ 7 := by
  induction whole generalizing acc need got s with
  | zero =>
    rw [fetchRest]
    split
    · simp [finishRead, fillBuffer]; omega
    · rename_i s1 hf
      have := (srcFetch_frame hf).1
      split <;> simp [this, hb]
    · rename_i s1 hf
      have := (srcFetch_frame hf).1
      simp [this, hb]
  | succ whole ih =>
    rw [fetchRest]
    split
    · exact ih _ _ _ _ (by omega) (by omega) rfl
    · rename_i s1 hf
      have := (srcFetch_frame hf).1
      split <;> simp [this, hb]
    · rename_i s1 hf
      have := (srcFetch_frame hf).1
      simp [this, hb]

theorem readBits_bitsLeft {n : Nat} (s : State) (hn : 1 ≤ n) (h : s.br.bitsLeft.toNat ≤ 7) :
    (readBits n s).br.bitsLeft.toNat ≤ 7 := by
  simp only [readBits]
  split
  · simp [finishRead]; omega
  · exact fetchRest_bitsLeft _ _ _ _ _ (by omega) (by omega) rfl

end Sys2Proof.Machine
end

