-- ==== Sys2Proof/Laws/Writer.lean ====
section
/-! SUPPORT. Writer.lean: everything WRU's execution can do (42_bit_writer.md R160 to R169). -/

namespace Sys2Proof.Machine

theorem snkEmit_ok {b : Octet} {s : State} {m : Nat} (hp : passes s.env.ioFaults s.env.snkDraws (m + 1)) :
    snkEmit b s =
      (.ok, { s with env.sink := s.env.sink ++ [b], env.snkDraws := drawsAfter s.env.ioFaults s.env.snkDraws 1 }) := by
  rw [snkEmit_eq, passes_head hp (by omega)]
  rfl

theorem snkEmit_fail {b : Octet} {s : State} (hf : failsAt s.env.ioFaults s.env.snkDraws 0) :
    snkEmit b s = (.fail, { s with env.snkDraws := drawsAfter s.env.ioFaults s.env.snkDraws 1 }) := by
  rw [snkEmit_eq, failsAt_zero hf]
  rfl

/-- Writing ends in one of three ways: the value fits; or an octet is emitted and the rest kept; or the emission fails and
nothing is packed (R161, R169). -/
theorem writeBits_cases (n v : Nat) (s : State) :
    (n < 8 - s.bw.bitsUsed.toNat ∧
      writeBits n v s =
        respond .ok 0
          { s with bw.acc := packBelow s.bw.acc (8 - s.bw.bitsUsed.toNat) n v
                   bw.bitsUsed := BitVec.ofNat 4 (s.bw.bitsUsed.toNat + n) }) ∨
    (8 - s.bw.bitsUsed.toNat ≤ n ∧
      writeBits n v s =
        respond .ok 0
          { s with bw.acc := leftover (n - (8 - s.bw.bitsUsed.toNat)) v
                   bw.bitsUsed := BitVec.ofNat 4 (n - (8 - s.bw.bitsUsed.toNat))
                   env.sink := s.env.sink ++ [completedOctet s.bw.acc (8 - s.bw.bitsUsed.toNat) n v]
                   env.snkDraws := drawsAfter s.env.ioFaults s.env.snkDraws 1 }) ∨
    (8 - s.bw.bitsUsed.toNat ≤ n ∧ s.env.ioFaults = true ∧
      writeBits n v s =
        raise .bw .io { s with env.snkDraws := drawsAfter s.env.ioFaults s.env.snkDraws 1 }) := by
  unfold writeBits
  by_cases h : n < 8 - s.bw.bitsUsed.toNat
  · exact .inl ⟨h, if_pos h⟩
  · right
    simp only [if_neg h, emitCompleted, snkEmit_eq]
    cases hd : s.env.ioFaults && s.env.snkDraws.headD false
    · exact .inl ⟨by omega, rfl⟩
    · exact .inr ⟨by omega, by simp_all, rfl⟩

/-- The bits of a value packed below the filled bits of an accumulator whose other bits are zero. -/
theorem packBelow_toNat {acc : Octet} {used n v : Nat} (hu : n + used ≤ 8) (hv : v < 2 ^ n)
    (hz : acc.toNat % 2 ^ (8 - used) = 0) :
    (packBelow acc (8 - used) n v).toNat = acc.toNat + v * 2 ^ (8 - used - n) := by
  have hlt : v * 2 ^ (8 - used - n) < 2 ^ (8 - used) := by
    calc v * 2 ^ (8 - used - n) < 2 ^ n * 2 ^ (8 - used - n) := Nat.mul_lt_mul_of_pos_right hv (Nat.two_pow_pos _)
      _ = 2 ^ (8 - used) := by rw [← pow_add]; congr 1; omega
  obtain ⟨a, ha⟩ := Nat.dvd_of_mod_eq_zero hz
  have hor : acc.toNat ||| v <<< (8 - used - n) = acc.toNat + v * 2 ^ (8 - used - n) := by
    rw [Nat.shiftLeft_eq, ha, Nat.two_pow_add_eq_or_of_lt hlt]
  rw [packBelow, BitVec.toNat_ofNat, hor, Nat.mod_eq_of_lt]
  have h8 : (2 : Nat) ^ 8 = 2 ^ (8 - used) * 2 ^ used := by rw [← pow_add]; congr 1; omega
  have hacc := acc.isLt
  rw [ha, h8] at hacc ⊢
  have : a < 2 ^ used := Nat.lt_of_mul_lt_mul_left hacc
  calc 2 ^ (8 - used) * a + v * 2 ^ (8 - used - n) < 2 ^ (8 - used) * a + 2 ^ (8 - used) := by omega
    _ = 2 ^ (8 - used) * (a + 1) := by ring
    _ ≤ 2 ^ (8 - used) * 2 ^ used := Nat.mul_le_mul_left _ this

end Sys2Proof.Machine
end

