-- ==== Sys2Proof/Tests/Slice0.lean ====
section
/-! SUPPORT. Slice0.lean: the model's own tests, each expected result taken from spec/95_test_vectors.md or written out from the
encodings of 30_encoding.md, and one witness for the hypotheses of each statement that has some. -/

namespace Sys2Proof.Machine

/-- The state of an outcome that is a next state. -/
def nextState : Host.Outcome State Fault Refusal → Option State
  | .next t => some t
  | .fault _ => none
  | .refused _ => none

/-- A reset block bound to a source. -/
def onSource (octets : List Octet) : State :=
  { State.reset with env.source := { octets := octets, endless := false, sp := 0, fresh := 0 } }

/-- A reader that has fetched all of its source but `left` bits of `buf`. -/
def midOctet (buf : Octet) (left : Cursor) : State :=
  { onSource [buf] with br.buf := buf, br.bitsLeft := left, env.source.sp := 1 }

/-- A writer with a residue. -/
def withResidue (acc : Octet) (used : Cursor) : State :=
  { State.reset with bw.acc := acc, bw.bitsUsed := used }

/-- The last response of an outcome, as status and data. -/
def lastAnswer (o : Host.Outcome State Fault Refusal) : Option (Status × U32) :=
  (nextState o).bind fun t => t.responses.getLast?.map fun r => (r.status, r.data)

/-! ## Decoding: the words of 95_test_vectors.md §2.1, bit by bit as 30_encoding.md Table E1 lays them out -/

theorem test_decode_rdu :
    decode 0b0001000000000001 = .ok (.rdu 1) ∧ decode 0b0001000000100000 = .ok (.rdu 32) ∧
    decode 0b0001000000000000 = .error .illegalOperand ∧ decode 0b0001000000100001 = .error .illegalOperand ∧
    decode 0b0001000001000000 = .error .illegalCommand ∧ decode 0b0001000100000110 = .error .illegalCommand := by decide

theorem test_decode_wru :
    decode 0b0010011000011001 = .ok (.wru 6 25) ∧ decode 0b0010100011111111 = .ok (.wru 8 255) ∧
    decode 0b0010000000000000 = .error .illegalOperand ∧ decode 0b0010100100000000 = .error .illegalOperand ∧
    decode 0b0010011001000000 = .error .illegalOperand := by decide

theorem test_decode_fin :
    decode 0b0011000000000000 = .ok .fin ∧ decode 0b0011000000000001 = .error .illegalCommand ∧
    decode 0b0011000100000000 = .error .illegalCommand := by decide

theorem test_decode_geo :
    decode 0b0100000001000000 = .ok (.geo 64) ∧ decode 0b0100000000000000 = .ok (.geo 0) ∧
    decode 0b0100000101000000 = .error .illegalCommand := by decide

theorem test_decode_unassigned :
    decode 0x0000 = .error .illegalCommand ∧ decode 0x0FFF = .error .illegalCommand ∧
    decode 0x5000 = .error .illegalCommand ∧ decode 0x8000 = .error .illegalCommand ∧
    decode 0xFFFF = .error .illegalCommand := by decide

theorem test_encode :
    encode (.rdu 6) = 0x1006 ∧ encode (.wru 6 25) = 0x2619 ∧ encode .fin = 0x3000 ∧ encode (.geo 64) = 0x4040 := by decide

/-- The host's two questions, on the match word of each row of the opcode table: a row whose all-zero operands are out of range
is still recognised, and its first step answers `IllegalOperand`. -/
theorem test_table_words :
    [0x1000, 0x2000, 0x3000, 0x4000].map (decodeTableWord 16) = [some (.rdu 0), some (.wru 0 0), some .fin, some (.geo 0)] ∧
    ([0x1000, 0x2000, 0x3000, 0x4000].map fun w => lastAnswer (step (State.reset.withFetchWord 16 w))) =
      [some (.illegalOperand, 0), some (.illegalOperand, 0), some (.ok, 0), some (.invalidAlphabet, 0)] := by decide

/-! ## WellFormed: a term each check refuses (30_encoding.md R85) -/

theorem test_wellFormed_refuses_rdu_zero : Instr.wellFormed (.rdu 0) = false := by decide
theorem test_wellFormed_refuses_rdu_above_32 : Instr.wellFormed (.rdu 33) = false := by decide
theorem test_wellFormed_refuses_wru_zero : Instr.wellFormed (.wru 0 0) = false := by decide
theorem test_wellFormed_refuses_wru_above_8 : Instr.wellFormed (.wru 9 0) = false := by decide
theorem test_wellFormed_refuses_wru_value : Instr.wellFormed (.wru 1 2) = false := by decide

/-! ## One command each -/

/-- V-R4, second command: 32 bits from bit 0 of DE on, four fetches. -/
theorem test_rdu_widest_unaligned :
    nextState (exec (.rdu 32) { onSource [0xDE, 0xAD, 0xBE, 0xEF, 0x01] with
      br.buf := 0xDE, br.bitsLeft := 1, env.source.sp := 1 }) =
    some { onSource [0xDE, 0xAD, 0xBE, 0xEF, 0x01] with
      br.buf := 0x01, br.bitsLeft := 1, env.source.sp := 5, responses := [⟨.ok, 0x56DF7780⟩] } := by decide

/-- V-R5, second command (90_conflicts.md C1): the buffered bits are lost and the reader is faulted. -/
theorem test_rdu_unexpected_end :
    nextState (exec (.rdu 5) (midOctet 0xF0 3)) =
    some { midOctet 0xF0 0 with br.fault := .unexpectedEndOfStream, responses := [⟨.unexpectedEndOfStream, 0⟩] } := by decide

/-- V-W3, third command: a value split over two octets. -/
theorem test_wru_split :
    nextState (exec (.wru 7 85) { withResidue 0x00 6 with env.sink := [0xFE] }) =
    some { withResidue 0xA8 5 with env.sink := [0xFE, 0x02], responses := [⟨.ok, 0⟩] } := by decide

/-- V-W1, third command: a value that fits below the filled bits. -/
theorem test_wru_packs :
    nextState (exec (.wru 3 5) (withResidue 0xA0 3)) =
    some { withResidue 0xB4 6 with responses := [⟨.ok, 0⟩] } := by decide

/-- V-W4, second command: FIN on a residue. -/
theorem test_fin_unaligned :
    nextState (exec .fin (withResidue 0xA0 3)) =
    some { withResidue 0xA0 3 with bw.fault := .unalignedEnd, responses := [⟨.unalignedEnd, 0⟩] } := by decide

/-- V-W1, last command: FIN at a byte boundary. -/
theorem test_fin_aligned : lastAnswer (exec .fin State.reset) = some (.ok, 0) := by decide

/-- 95_test_vectors.md §2.2. -/
theorem test_geo : lastAnswer (exec (.geo 64) State.reset) = some (.ok, 0x00000436) ∧
    lastAnswer (exec (.geo 65) State.reset) = some (.invalidAlphabet, 0) := by decide

/-! ## The host's worked examples (95_test_vectors.md §1.2, §1.3) -/

/-- "fo" is "Zm8=" in Base64 with padding. -/
theorem test_codec_encode :
    (construct base64 true State.reset).toOption.map (fun cfg => (encodeOctets cfg [0x66, 0x6F] [] State.reset).out) =
      some [0x5A, 0x6D, 0x38, 0x3D] := by decide

/-- "Z===" fails `BadPadding`; "Zg=" fails `UnexpectedEndOfStream` and keeps the octet 66. -/
theorem test_codec_decode :
    (construct base64 true State.reset).toOption.map (fun cfg =>
      ((decodeChars cfg [0x5A, 0x3D, 0x3D, 0x3D] [] State.reset).ending,
        (decodeChars cfg [0x5A, 0x67, 0x3D] [] State.reset).ending,
        (decodeChars cfg [0x5A, 0x67, 0x3D] [] State.reset).block.env.sink)) =
      some (.failed .badPadding, .failed .unexpectedEndOfStream, [0x66]) := by decide

/-- R199: "Zg==" whose third character cannot be read fails `Io` and keeps the octet 66; "fo" whose second character cannot be
written fails `Io` and keeps the first. -/
theorem test_codec_character_failure :
    (construct base64 true State.reset).toOption.map (fun cfg =>
      ((decodeChars cfg [0x5A, 0x67, 0x3D, 0x3D] [false, false, true] State.reset).ending,
        (decodeChars cfg [0x5A, 0x67, 0x3D, 0x3D] [false, false, true] State.reset).block.env.sink,
        (encodeOctets cfg [0x66, 0x6F] [false, true] State.reset).ending,
        (encodeOctets cfg [0x66, 0x6F] [false, true] State.reset).out)) =
      some (.failed .io, [0x66], .failed .io, [0x5A]) := by decide

/-! ## Witnesses: a concrete state and operands that meet each statement's hypotheses together -/

/-- A state whose streams may fail: the first `SrcFetch` and the first `SnkEmit` succeed, the second of each fails. -/
def secondAccessFails : State :=
  { onSource [0x12, 0x34, 0x56] with
    bw.acc := 0xFE, bw.bitsUsed := 7, env.ioFaults := true, env.srcDraws := [false, true], env.snkDraws := [false, true] }

/-- A state whose streams fail at once. -/
def firstAccessFails : State :=
  { secondAccessFails with env.srcDraws := [true], env.snkDraws := [true] }

/-- An endless source of which one octet is listed, and both units faulted. -/
def faultedEndless : State :=
  { State.reset with
    br.fault := .io, bw.fault := .unalignedEnd, env.source := { octets := [0xC3], endless := true, sp := 1, fresh := 0 } }

theorem witness_EncodeThenDecodeReturnsTheCommand :
    Instr.wellFormed (.rdu 1) = true ∧ Instr.wellFormed (.rdu 32) = true ∧ Instr.wellFormed (.wru 1 1) = true ∧
    Instr.wellFormed (.wru 8 255) = true ∧ Instr.wellFormed .fin = true ∧ Instr.wellFormed (.geo 255) = true := by decide

theorem witness_RecognisedWordsEncodeBack :
    recognise 0x103F = some (.rdu 63) ∧ recognise 0x2FFF = some (.wru 15 255) ∧ recognise 0x3000 = some .fin ∧
    recognise 0x40FF = some (.geo 255) := by decide

theorem witness_RowsMatchByMask : (0x0FFF : CmdWord).toNat / 2 ^ 12 = 0 ∧ 5 ≤ (0x5000 : CmdWord).toNat / 2 ^ 12 := by decide

theorem witness_IllegalWordsAreAnsweredIllegalCommand :
    decode 0x1040 = .error .illegalCommand ∧ decode 0x1FC0 = .error .illegalCommand ∧ decode 0x3FFF = .error .illegalCommand ∧
    decode 0x4F00 = .error .illegalCommand ∧
    ({ State.reset with port := [.command 0x1040, .reset] } : State).port = .command 0x1040 :: [.reset] := by decide

theorem witness_OutOfRangeOperandsAreAnsweredIllegalOperand :
    (0 : BitVec 6).toNat = 0 ∧ 33 ≤ (33 : BitVec 6).toNat ∧ (0 : BitVec 4).toNat = 0 ∧ 9 ≤ (9 : BitVec 4).toNat ∧
    2 ^ (7 : BitVec 4).toNat ≤ (128 : BitVec 8).toNat := by decide

theorem witness_StepRunsTheDecodedCommand :
    ({ State.reset with port := [.command 0x1020] } : State).port = .command 0x1020 :: [] ∧
    decode 0x1020 = .ok (.rdu 32) ∧ decode 0x1021 = .error .illegalOperand ∧ decode 0x5000 = .error .illegalCommand := by decide

theorem witness_ResetWritesTheSixRegistersOnly :
    ({ faultedEndless with port := [.reset, .bindSink] } : State).port = .reset :: [.bindSink] := by decide

theorem witness_BindingsLeaveTheBlockAlone :
    ({ faultedEndless with port := [.bindSource [0x41] false] } : State).port = .bindSource [0x41] false :: [] ∧
    ({ withResidue 0xA0 3 with port := [.bindSink] } : State).port = .bindSink :: [] := by decide

theorem witness_ProtocolViolationsAreRefused :
    ({ State.reset with port := [.resetDuringCommand 0x1001] } : State).port = .resetDuringCommand 0x1001 :: [] ∧
    ({ State.reset with port := [.secondCommand 0x1001 0x3000] } : State).port = .secondCommand 0x1001 0x3000 :: [] := by decide

theorem witness_GeoAnswersTheWordGeometry :
    (2 : BitVec 8).toNat = 2 ^ 1 ∧ (128 : BitVec 8).toNat = 2 ^ 7 ∧
    (∀ k < 8, 1 ≤ k → (0 : BitVec 8).toNat ≠ 2 ^ k) ∧ (∀ k < 8, 1 ≤ k → (1 : BitVec 8).toNat ≠ 2 ^ k) ∧
    (∀ k < 8, 1 ≤ k → (255 : BitVec 8).toNat ≠ 2 ^ k) := by decide

theorem witness_GeometryIsTheSmallestAlignment :
    geometry 2 = some ⟨1, 1, 8⟩ ∧ geometry 64 = some ⟨6, 3, 4⟩ ∧ geometry 128 = some ⟨7, 7, 8⟩ := by decide

theorem witness_SrcFetchAnswersTheNextOctet :
    (secondAccessFails.env.source.sp < secondAccessFails.env.source.octets.length ∧
      passes secondAccessFails.env.ioFaults secondAccessFails.env.srcDraws 1) ∧
    ((midOctet 0xF0 3).env.source.octets.length ≤ (midOctet 0xF0 3).env.source.sp ∧
      (midOctet 0xF0 3).env.source.endless = false ∧
      passes (midOctet 0xF0 3).env.ioFaults (midOctet 0xF0 3).env.srcDraws 1) ∧
    (faultedEndless.env.source.octets.length ≤ faultedEndless.env.source.sp ∧ faultedEndless.env.source.endless = true ∧
      passes faultedEndless.env.ioFaults faultedEndless.env.srcDraws 1) ∧
    failsAt firstAccessFails.env.ioFaults firstAccessFails.env.srcDraws 0 ∧ State.reset.env.ioFaults = false := by
  unfold passes failsAt; decide

theorem witness_SnkEmitAppendsItsOctet :
    passes secondAccessFails.env.ioFaults secondAccessFails.env.snkDraws 1 ∧
    failsAt firstAccessFails.env.ioFaults firstAccessFails.env.snkDraws 0 ∧ State.reset.env.ioFaults = false := by
  unfold passes failsAt; decide

theorem witness_RduServedFromTheBuffer :
    (midOctet 0x81 5).br.fault = .none ∧ 1 ≤ (5 : BitVec 6).toNat ∧
    (5 : BitVec 6).toNat ≤ (midOctet 0x81 5).br.bitsLeft.toNat ∧ (midOctet 0x81 5).br.bitsLeft.toNat ≤ 8 ∧
    (8 : BitVec 6).toNat ≤ (midOctet 0x81 8).br.bitsLeft.toNat ∧ (midOctet 0x81 8).br.bitsLeft.toNat ≤ 8 := by decide

theorem witness_RduReturnsTheNextBits :
    (Inv secondAccessFails ∧ secondAccessFails.br.fault = .none ∧ 1 ≤ (8 : BitVec 6).toNat ∧ (8 : BitVec 6).toNat ≤ 32 ∧
      secondAccessFails.env.source.canGive (fetchCount 8 0) ∧
      passes secondAccessFails.env.ioFaults secondAccessFails.env.srcDraws (fetchCount 8 0)) ∧
    (Inv (onSource [1, 2, 3, 4]) ∧ (onSource [1, 2, 3, 4]).br.fault = .none ∧ (32 : BitVec 6).toNat ≤ 32 ∧
      (onSource [1, 2, 3, 4]).env.source.canGive (fetchCount 32 0) ∧
      passes (onSource [1, 2, 3, 4]).env.ioFaults (onSource [1, 2, 3, 4]).env.srcDraws (fetchCount 32 0)) := by
  unfold Source.canGive passes; decide

theorem witness_EndOfStreamExactlyAtAByteBoundary :
    Inv (midOctet 0xF0 3) ∧ (midOctet 0xF0 3).br.fault = .none ∧ 1 ≤ (5 : BitVec 6).toNat ∧ (5 : BitVec 6).toNat ≤ 32 ∧
    (0 < fetchCount 5 3 ∧ 0 < 3 + 0 ∧ (midOctet 0xF0 3).env.source.canGive 0 ∧
      ¬ (midOctet 0xF0 3).env.source.canGive 1 ∧ passes (midOctet 0xF0 3).env.ioFaults (midOctet 0xF0 3).env.srcDraws 1) ∧
    (Inv (midOctet 0xF0 0) ∧ (midOctet 0xF0 0).br.bitsLeft.toNat = 0 ∧ ¬ (midOctet 0xF0 0).env.source.canGive 1) := by
  unfold Source.canGive passes; decide

theorem witness_EndOfStreamChangesNothing :
    (midOctet 0xF0 0).br.fault = .none ∧ 1 ≤ (32 : BitVec 6).toNat ∧ (32 : BitVec 6).toNat ≤ 32 ∧
    (midOctet 0xF0 0).br.bitsLeft.toNat = 0 ∧ ¬ (midOctet 0xF0 0).env.source.canGive 1 ∧
    passes (midOctet 0xF0 0).env.ioFaults (midOctet 0xF0 0).env.srcDraws 1 := by
  unfold Source.canGive passes; decide

theorem witness_UnexpectedEndLeavesAnEmptyFaultedReader :
    (Inv (midOctet 0xF0 3) ∧ (midOctet 0xF0 3).br.fault = .none ∧ (5 : BitVec 6).toNat ≤ 32 ∧ 0 < fetchCount 5 3 ∧
      (midOctet 0xF0 3).env.source.canGive 0 ∧ ¬ (midOctet 0xF0 3).env.source.canGive 1 ∧ 0 < 3 + 0 ∧
      passes (midOctet 0xF0 3).env.ioFaults (midOctet 0xF0 3).env.srcDraws 1) ∧
    (Inv (onSource [1, 2, 3]) ∧ (onSource [1, 2, 3]).br.fault = .none ∧ (32 : BitVec 6).toNat ≤ 32 ∧ 3 < fetchCount 32 0 ∧
      (onSource [1, 2, 3]).env.source.canGive 3 ∧ ¬ (onSource [1, 2, 3]).env.source.canGive 4 ∧
      passes (onSource [1, 2, 3]).env.ioFaults (onSource [1, 2, 3]).env.srcDraws 4) := by
  unfold Source.canGive passes; decide

/-- By the first two commands the second parts of this statement and of `FailedEmissionPacksNothing` have a case as well. -/
theorem witness_FailedFetchLeavesAnIoFault :
    (∃ t, exec (.rdu 1) firstAccessFails = .next t ∧ answeredWith .io firstAccessFails t) ∧
    (∃ t, exec (.wru 1 1) firstAccessFails = .next t ∧ answeredWith .io firstAccessFails t) ∧
    (Inv firstAccessFails ∧ firstAccessFails.br.fault = .none ∧ 0 < fetchCount 1 0 ∧ firstAccessFails.env.source.canGive 0 ∧
      failsAt firstAccessFails.env.ioFaults firstAccessFails.env.srcDraws 0) ∧
    (Inv secondAccessFails ∧ secondAccessFails.br.fault = .none ∧ (12 : BitVec 6).toNat ≤ 32 ∧ 1 < fetchCount 12 0 ∧
      secondAccessFails.env.source.canGive 1 ∧ failsAt secondAccessFails.env.ioFaults secondAccessFails.env.srcDraws 1) := by
  refine ⟨⟨_, rfl, ⟨0, rfl⟩⟩, ⟨_, rfl, ⟨0, rfl⟩⟩, ?_⟩
  unfold Source.canGive failsAt; decide

theorem witness_EndOfStreamRepeats :
    ∃ t, exec (.rdu 32) (midOctet 0xF0 0) = .next t ∧ answeredWith .endOfStream (midOctet 0xF0 0) t ∧
      1 ≤ (32 : BitVec 6).toNat ∧ (32 : BitVec 6).toNat ≤ 32 ∧ passes t.env.ioFaults t.env.srcDraws 1 :=
  ⟨_, rfl, ⟨0, rfl⟩, by decide, by decide, by unfold passes; decide⟩

theorem witness_RduFollowsTheLoop :
    Inv faultedEndless ∧ faultedEndless.br.fault ≠ .none ∧ Inv (midOctet 0xF0 7) ∧ (midOctet 0xF0 7).br.fault = .none ∧
    1 ≤ (1 : BitVec 6).toNat ∧ (32 : BitVec 6).toNat ≤ 32 := by decide

theorem witness_WruPacksFillsOrSplits :
    (Inv (withResidue 0xA0 3) ∧ (withResidue 0xA0 3).bw.fault = .none ∧ 1 ≤ (4 : BitVec 4).toNat ∧
      (4 : BitVec 4).toNat ≤ 8 ∧ (15 : BitVec 8).toNat < 2 ^ (4 : BitVec 4).toNat) ∧
    ((4 : BitVec 4).toNat < 8 - (withResidue 0xA0 3).bw.bitsUsed.toNat ∧
      (5 : BitVec 4).toNat = 8 - (withResidue 0xA0 3).bw.bitsUsed.toNat ∧
      8 - (withResidue 0xA0 3).bw.bitsUsed.toNat < (6 : BitVec 4).toNat) ∧
    (Inv secondAccessFails ∧ 8 - secondAccessFails.bw.bitsUsed.toNat < (8 : BitVec 4).toNat ∧
      passes secondAccessFails.env.ioFaults secondAccessFails.env.snkDraws 1) := by
  unfold passes; decide

theorem witness_WruAppendsItsBits :
    ∃ t, Inv (withResidue 0xFE 7) ∧ exec (.wru 8 255) (withResidue 0xFE 7) = .next t ∧
      answeredWith .ok (withResidue 0xFE 7) t :=
  ⟨_, by decide, rfl, ⟨0, rfl⟩⟩

theorem witness_WruEmitsAtMostOneOctet :
    Inv secondAccessFails ∧ secondAccessFails.bw.fault = .none ∧ 1 ≤ (1 : BitVec 4).toNat ∧ (1 : BitVec 4).toNat ≤ 8 ∧
    (1 : BitVec 8).toNat < 2 ^ (1 : BitVec 4).toNat ∧
    passes secondAccessFails.env.ioFaults secondAccessFails.env.snkDraws 1 := by
  unfold passes; decide

theorem witness_FailedEmissionPacksNothing :
    firstAccessFails.bw.fault = .none ∧ 1 ≤ (1 : BitVec 4).toNat ∧ (1 : BitVec 4).toNat ≤ 8 ∧
    (1 : BitVec 8).toNat < 2 ^ (1 : BitVec 4).toNat ∧ 8 ≤ firstAccessFails.bw.bitsUsed.toNat + (1 : BitVec 4).toNat ∧
    failsAt firstAccessFails.env.ioFaults firstAccessFails.env.snkDraws 0 := by
  unfold failsAt; decide

theorem witness_FinChecksTheByteBoundary :
    faultedEndless.bw.fault ≠ .none ∧ (State.reset.bw.fault = .none ∧ State.reset.bw.bitsUsed = 0) ∧
    ((withResidue 0xFE 7).bw.fault = .none ∧ (withResidue 0xFE 7).bw.bitsUsed ≠ 0) := by decide

theorem witness_FaultGate :
    1 ≤ (32 : BitVec 6).toNat ∧ (32 : BitVec 6).toNat ≤ 32 ∧ faultedEndless.br.fault ≠ .none ∧
    (255 : BitVec 8).toNat < 2 ^ (8 : BitVec 4).toNat ∧ faultedEndless.bw.fault ≠ .none ∧
    (∃ t, exec .fin faultedEndless = .next t) ∧ (∃ t, exec (.rdu 1) faultedEndless = .next t) :=
  ⟨by decide, by decide, by decide, by decide, by decide, ⟨_, rfl⟩, ⟨_, rfl⟩⟩

theorem witness_FaultsStayUntilReset :
    ∃ t, step { faultedEndless with port := [.bindSink] } = .next t ∧
      (∀ rest, ({ faultedEndless with port := [.bindSink] } : State).port ≠ .reset :: rest) ∧
      faultedEndless.br.fault ≠ .none ∧ faultedEndless.bw.fault ≠ .none :=
  ⟨_, rfl, by simp, by decide, by decide⟩

theorem witness_EveryCommandIsAnsweredOnce :
    (∃ t, exec (.geo 2) State.reset = .next t ∧ t.responses.map (·.data) = [0x00000811]) ∧
    (∃ t, exec (.rdu 8) (onSource [0x5A]) = .next t ∧ t.responses.map (·.data) = [0x0000005A]) :=
  ⟨⟨_, rfl, rfl⟩, ⟨_, rfl, by decide⟩⟩

theorem witness_StatusesFollowTableE2 :
    (∃ t, exec (.rdu 5) (midOctet 0xF0 3) = .next t ∧ answeredWith .unexpectedEndOfStream (midOctet 0xF0 3) t) ∧
    (∃ t, exec (.wru 1 1) firstAccessFails = .next t ∧ answeredWith .io firstAccessFails t) ∧
    (∃ t, exec .fin (withResidue 0xA0 3) = .next t ∧ answeredWith .unalignedEnd (withResidue 0xA0 3) t) ∧
    (∃ t, exec (.geo 3) State.reset = .next t ∧ answeredWith .invalidAlphabet State.reset t) :=
  ⟨⟨_, rfl, ⟨0, rfl⟩⟩, ⟨_, rfl, ⟨0, rfl⟩⟩, ⟨_, rfl, ⟨0, rfl⟩⟩, ⟨_, rfl, ⟨0, rfl⟩⟩⟩

theorem witness_WithoutIoFaultsNothingFails :
    ∃ t, (midOctet 0xF0 3).env.ioFaults = false ∧ step { midOctet 0xF0 3 with port := [.command 0x1005] } = .next t :=
  ⟨_, rfl, rfl⟩

/-- Also the witness of `StreamsOnlyMoveForward`. -/
theorem witness_CommandsStayInTheirUnit :
    (∃ t, exec (.rdu 32) (onSource [1, 2, 3, 4]) = .next t) ∧ (∃ t, exec (.wru 1 1) (withResidue 0xFE 7) = .next t) ∧
    (∃ t, exec .fin (withResidue 0xFE 7) = .next t) ∧ (∃ t, exec (.geo 255) State.reset = .next t) :=
  ⟨⟨_, rfl⟩, ⟨_, rfl⟩, ⟨_, rfl⟩, ⟨_, rfl⟩⟩

theorem witness_ReaderAndWriterCommandsCommute :
    (Instr.fin = .fin ∨ ∃ m v, Instr.fin = .wru m v) ∧ (Instr.wru 8 255 = .fin ∨ ∃ m v, Instr.wru 8 255 = .wru m v) ∧
    ∃ t, exec (.geo 255) faultedEndless = .next t :=
  ⟨.inl rfl, .inr ⟨8, 255, rfl⟩, ⟨_, rfl⟩⟩

theorem witness_EveryStepKeepsTheInvariant :
    ∃ t, Inv { secondAccessFails with port := [.command (encode (.wru 1 1))] } ∧
      step { secondAccessFails with port := [.command (encode (.wru 1 1))] } = .next t :=
  ⟨_, by decide, rfl⟩

theorem witness_ReadsCutTheSourceBitString :
    let s : State := { onSource [0xA5, 0x3C] with port := readEvents [1, 2, 13] }
    s.br = BitReader.reset ∧ s.env.source.sp = 0 ∧
    (∀ n ∈ ([1, 2, 13] : List (BitVec 6)), 1 ≤ n.toNat ∧ n.toNat ≤ 32) ∧ s.port = readEvents [1, 2, 13] ∧ s.env.ioFaults = false := by decide

theorem witness_WritesBuildTheSinkBitString :
    let s : State := { State.reset with
      env.ioFaults := true, env.snkDraws := [false, true], port := writeEvents [(7, 127), (7, 0)] }
    s.bw = BitWriter.reset ∧ s.env.sink = [] ∧
    (∀ w ∈ ([(7, 127), (7, 0)] : List (BitVec 4 × BitVec 8)), 1 ≤ w.1.toNat ∧ w.1.toNat ≤ 8 ∧ w.2.toNat < 2 ^ w.1.toNat) ∧
    s.port = writeEvents [(7, 127), (7, 0)] ∧
    passes s.env.ioFaults s.env.snkDraws ((joinBits [(7, 127), (7, 0)]).length / 8) := by
  refine ⟨by decide, by decide, by simp, by decide, fun _ j hj => ?_⟩
  have h : j < 1 := hj
  obtain rfl : j = 0 := by omega
  decide

theorem witness_WrittenValuesAreReadBack :
    (nextState (core.run 2 ({ State.reset with port := writeEvents [(7, 127), (7, 0)] } : State))).map
      (fun t => decide (7 ≤ 8 * t.env.sink.length)) = some true := by decide

theorem witness_ReadValuesWriteTheSourceBack :
    (nextState (core.run 2 ({ onSource [0xA5] with port := readEvents [3, 5] } : State))).map (·.responses) =
      some [⟨.ok, 5⟩, ⟨.ok, 5⟩] ∧
    (([3, 5] : List (BitVec 6)).map BitVec.toNat).sum = 8 * (onSource [0xA5]).env.source.octets.length := by decide

theorem witness_DecodingUndoesEncoding :
    (construct base64 true State.reset).toOption.isSome = true ∧ State.reset.env.ioFaults = false ∧
    (∀ d ∈ [false, false], d = false) := by decide

/-- An operation whose last access is the first that fails, on encode (the second pad of "Zg==") and on decode (the end after
"Zg"), and a draw beyond its accesses. -/
theorem witness_FailedCharacterAccessesKeepTheOutput :
    ((construct base64 true State.reset).toOption.map fun cfg =>
      ((encodeOctets cfg [0x66] [] State.reset).out.length, readings cfg [0x5A, 0x67] State.reset)) = some (4, 3) ∧
    (3 < 4 ∧ failsAt true [false, false, false, true] 3 ∧ passes true [false, false, false, false, true] 4) ∧
    (2 < 3 ∧ failsAt true [false, false, true] 2 ∧ passes true [false, false, false, true] 3) := by
  refine ⟨by decide, ?_⟩
  unfold failsAt passes
  decide

end Sys2Proof.Machine
end

section
/-! PROOFS. The state (10_state.md): what a command and a step can do, said once; the registers' reset values, the invariant
between commands, the sticky fault registers, and the frame of each command. -/

namespace Sys2Proof.Machine

/-! ### What a command can do -/

/-- The one response of `GEO N` (40_geometry.md R110, R115). -/
def geoResponse (N : Nat) : Response :=
  match geometry N with
  | some g => { status := .ok, data := packGeometry g }
  | none => { status := .invalidAlphabet, data := 0 }

theorem exec_geo_eq (N : BitVec 8) (s : State) :
    exec (.geo N) s = .next (respond (geoResponse N.toNat).status (geoResponse N.toNat).data s) := by
  simp only [exec, execGeo, checked_run unitFaulted_geo, answerGeometry, geoResponse]
  cases geometry N.toNat <;> simp

/-- The checks of R234 only add a response, unless they pass and the command is executed. -/
theorem checked_respond_or_run (u : UnitName) (legal : Bool) (run : State → State) (s : State) :
    (∃ st d, checked u legal run s = respond st d s) ∨
    (legal = true ∧ unitFaulted u s = false ∧ checked u legal run s = run s) := by
  rcases checked_cases u legal run s with ⟨-, h⟩ | ⟨-, -, h⟩ | h
  · exact .inl ⟨_, _, h⟩
  · exact .inl ⟨_, _, h⟩
  · exact .inr h

/-- FIN only answers, or fails with `UnalignedEnd` (42_bit_writer.md R164, R165). -/
theorem finishWrites_cases (s : State) :
    finishWrites s = respond .ok 0 s ∨ finishWrites s = raise .bw .unalignedEnd s := by
  unfold finishWrites
  split
  · exact .inl rfl
  · exact .inr rfl

/-- Everything a command can do: it only answers; or it is a legal read or write, or a failing FIN, of a unit that has no fault
recorded (60_exceptions.md R234). -/
theorem exec_cases {i : Instr} {s t : State} (h : exec i s = .next t) :
    (∃ st d, t = respond st d s) ∨
    (∃ n, i = .rdu n ∧ (1 ≤ n.toNat ∧ n.toNat ≤ 32) ∧ s.br.fault = .none ∧ t = readBits n.toNat s) ∨
    (∃ n v, i = .wru n v ∧ (1 ≤ n.toNat ∧ n.toNat ≤ 8 ∧ v.toNat < 2 ^ n.toNat) ∧ s.bw.fault = .none ∧
      t = writeBits n.toNat v.toNat s) ∨
    (i = .fin ∧ s.bw.fault = .none ∧ t = raise .bw .unalignedEnd s) := by
  cases i with
  | rdu n =>
    obtain rfl : checked .br (rduOperandLegal n) (readBits n.toNat) s = t := by simpa [exec, execRdu] using h
    rcases checked_respond_or_run .br (rduOperandLegal n) (readBits n.toNat) s with ha | ⟨hn, hf, hr⟩
    · exact .inl ha
    · exact .inr (.inl ⟨n, rfl, rduOperandLegal_iff.mp hn, by simpa [unitFaulted] using hf, hr⟩)
  | wru n v =>
    obtain rfl : checked .bw (wruOperandLegal n v) (writeBits n.toNat v.toNat) s = t := by
      simpa [exec, execWru] using h
    rcases checked_respond_or_run .bw (wruOperandLegal n v) (writeBits n.toNat v.toNat) s with ha | ⟨hn, hf, hr⟩
    · exact .inl ha
    · exact .inr (.inr (.inl ⟨n, v, rfl, wruOperandLegal_iff.mp hn, by simpa [unitFaulted] using hf, hr⟩))
  | fin =>
    obtain rfl : checked .bw true finishWrites s = t := by simpa [exec, execFin] using h
    rcases checked_respond_or_run .bw true finishWrites s with ha | ⟨-, hf, hr⟩
    · exact .inl ha
    · rw [hr]
      rcases finishWrites_cases s with ho | hu
      · exact .inl ⟨_, _, ho⟩
      · exact .inr (.inr (.inr ⟨rfl, by simpa [unitFaulted] using hf, hu⟩))
  | geo N => exact .inl ⟨_, _, by simpa using ((exec_geo_eq N s).symm.trans h).symm⟩

/-- Everything a step that answers a next state can do (30_encoding.md R92, 70_reset_and_hazards.md R270, R273). -/
theorem step_cases {s t : State} (h : step s = .next t) :
    t = s ∨
    (∃ w rest i, s.port = .command w :: rest ∧ recognise w = some i ∧ exec i { s with port := rest } = .next t) ∨
    (∃ w rest, s.port = .command w :: rest ∧ recognise w = none ∧
      t = respond .illegalCommand 0 { s with port := rest }) ∨
    (∃ rest, s.port = .reset :: rest ∧ t = applyReset { s with port := rest }) ∨
    (∃ S e rest, s.port = .bindSource S e :: rest ∧ t = bindSource S e { s with port := rest }) ∨
    (∃ rest, s.port = .bindSink :: rest ∧ t = bindSink { s with port := rest }) := by
  unfold step at h
  split at h
  case h_1 => exact .inl (by simpa using h.symm)
  case h_2 w rest hp =>
    unfold runCommand at h
    split at h
    case h_1 i hi => exact .inr (.inl ⟨w, rest, i, hp, hi, h⟩)
    case h_2 hi =>
      exact .inr (.inr (.inl ⟨w, rest, hp, hi, by simpa [answerIllegalCommand] using h.symm⟩))
  case h_3 rest hp => exact .inr (.inr (.inr (.inl ⟨rest, hp, by simpa using h.symm⟩)))
  case h_4 S e rest hp => exact .inr (.inr (.inr (.inr (.inl ⟨S, e, rest, hp, by simpa using h.symm⟩))))
  case h_5 rest hp => exact .inr (.inr (.inr (.inr (.inr ⟨rest, hp, by simpa using h.symm⟩))))
  case h_6 => simp at h
  case h_7 => simp at h

/-- What a write leaves alone, whatever it answers (10_state.md R20, 20_memory.md R61). -/
theorem writeBits_frame (n v : Nat) (s : State) :
    (writeBits n v s).br = s.br ∧ (writeBits n v s).port = s.port ∧
    (writeBits n v s).env.ioFaults = s.env.ioFaults ∧ (writeBits n v s).env.source = s.env.source ∧
    (writeBits n v s).env.srcDraws = s.env.srcDraws ∧ s.env.sink <+: (writeBits n v s).env.sink ∧
    s.responses <+: (writeBits n v s).responses := by
  rcases writeBits_cases n v s with ⟨-, h⟩ | ⟨-, h⟩ | ⟨-, -, h⟩ <;> rw [h] <;> simp

/-! ### The invariant between commands -/

@[simp] theorem inv_respond (st : Status) (d : U32) (s : State) : Inv (respond st d s) ↔ Inv s := .rfl

@[simp] theorem inv_raise (u : UnitName) (st : Status) (s : State) : Inv (raise u st s) ↔ Inv s := by
  simp [Inv]

/-- The accumulator that holds r leftover bits at its top has zeros below them. -/
theorem leftover_mod (r v : Nat) : (leftover r v).toNat % 2 ^ (8 - r) = 0 := by
  rw [leftover, BitVec.toNat_ofNat, Nat.mod_mod_of_dvd _ (pow_dvd_pow 2 (Nat.sub_le 8 r)), Nat.shiftLeft_eq,
    Nat.mul_mod_left]

/-- A value of n bits packed below the filled bits leaves zeros below it. -/
theorem packBelow_mod {acc : Octet} {used n v : Nat} (hu : n + used ≤ 8) (hv : v < 2 ^ n)
    (hz : acc.toNat % 2 ^ (8 - used) = 0) :
    (packBelow acc (8 - used) n v).toNat % 2 ^ (8 - (used + n)) = 0 := by
  have hacc : 2 ^ (8 - (used + n)) ∣ acc.toNat :=
    (pow_dvd_pow 2 (by omega)).trans (Nat.dvd_of_mod_eq_zero hz)
  rw [packBelow_toNat hu hv hz, Nat.sub_sub]
  exact Nat.mod_eq_zero_of_dvd (hacc.add (Nat.dvd_mul_left _ _))

theorem writeBits_inv {n v : Nat} {s : State} (hn : n ≤ 8) (hv : v < 2 ^ n) (hs : Inv s) : Inv (writeBits n v s) := by
  obtain ⟨hleft, hused, hacc, hsp⟩ := hs
  rcases writeBits_cases n v s with ⟨hlt, h⟩ | ⟨hge, h⟩ | ⟨-, -, h⟩
  · have hu : (BitVec.ofNat 4 (s.bw.bitsUsed.toNat + n)).toNat = s.bw.bitsUsed.toNat + n := by
      rw [BitVec.toNat_ofNat]; omega
    rw [h, inv_respond]
    refine ⟨hleft, ?_, ?_, hsp⟩
    · simp only [hu]; omega
    · simp only [hu]; exact packBelow_mod (by omega) hv hacc
  · have hr : (BitVec.ofNat 4 (n - (8 - s.bw.bitsUsed.toNat))).toNat = n - (8 - s.bw.bitsUsed.toNat) := by
      rw [BitVec.toNat_ofNat]; omega
    rw [h, inv_respond]
    refine ⟨hleft, ?_, ?_, hsp⟩
    · simp only [hr]; omega
    · simp only [hr]; exact leftover_mod _ v
  · rw [h, inv_raise]
    exact ⟨hleft, hused, hacc, hsp⟩

theorem readBits_inv {n : Nat} {s : State} (h1 : 1 ≤ n) (h32 : n ≤ 32) (hs : Inv s) : Inv (readBits n s) := by
  obtain ⟨hleft, hused, hacc, hsp⟩ := hs
  have he := readBits_effect h32 s
  refine ⟨readBits_bitsLeft s h1 hleft, ?_, ?_, ?_⟩
  · rw [he.bw]; exact hused
  · rw [he.bw]; exact hacc
  · rw [he.endless, he.octets]; exact he.sp_end hsp

theorem exec_inv {i : Instr} {s t : State} (hs : Inv s) (h : exec i s = .next t) : Inv t := by
  rcases exec_cases h with ⟨st, d, rfl⟩ | ⟨n, -, ⟨h1, h32⟩, -, rfl⟩ | ⟨n, v, -, ⟨-, h8, hv⟩, -, rfl⟩ | ⟨-, -, rfl⟩
  · exact hs
  · exact readBits_inv h1 h32 hs
  · exact writeBits_inv h8 hv hs
  · exact (inv_raise _ _ _).mpr hs

/-- Settles O43: at reset both cursors, the accumulator and the position are zero. -/
theorem theInvariantHoldsAtReset : Obligations.TheInvariantHoldsAtReset := by
  unfold Obligations.TheInvariantHoldsAtReset
  decide

theorem applyReset_inv {s : State} (hs : Inv s) : Inv (applyReset s) := by
  obtain ⟨hleft, hused, hacc, -⟩ := theInvariantHoldsAtReset
  obtain ⟨-, -, -, hsp⟩ := hs
  exact ⟨hleft, hused, hacc, hsp⟩

theorem bindSource_inv {s : State} (S : List Octet) (e : Bool) (hs : Inv s) : Inv (bindSource S e s) := by
  obtain ⟨hleft, hused, hacc, -⟩ := hs
  exact ⟨hleft, hused, hacc, fun _ => Nat.zero_le _⟩

/-- Settles O42: each thing a step can do keeps the invariant. -/
theorem everyStepKeepsTheInvariant : Obligations.EveryStepKeepsTheInvariant := by
  intro s t hs h
  rcases step_cases h with rfl | ⟨w, rest, i, -, -, hx⟩ | ⟨w, rest, -, -, rfl⟩ | ⟨rest, -, rfl⟩ |
    ⟨S, e, rest, -, rfl⟩ | ⟨rest, -, rfl⟩
  · exact hs
  · exact exec_inv (s := { s with port := rest }) hs hx
  · exact hs
  · exact applyReset_inv (s := { s with port := rest }) hs
  · exact bindSource_inv (s := { s with port := rest }) S e hs
  · exact hs

/-- Settles O10: the register values of `State.reset`, read off. -/
theorem resetStateHoldsTheResetValues : Obligations.ResetStateHoldsTheResetValues :=
  ⟨rfl, rfl⟩

/-! ### The sticky fault registers -/

/-- No command changes a fault register that is set (60_exceptions.md R238): only a unit with no fault recorded executes. -/
theorem exec_keeps_faults {i : Instr} {s t : State} (h : exec i s = .next t) :
    (s.br.fault ≠ .none → t.br.fault = s.br.fault) ∧ (s.bw.fault ≠ .none → t.bw.fault = s.bw.fault) := by
  rcases exec_cases h with ⟨st, d, rfl⟩ | ⟨n, -, ⟨-, h32⟩, hf, rfl⟩ | ⟨n, v, -, -, hf, rfl⟩ | ⟨-, hf, rfl⟩
  · exact ⟨fun _ => rfl, fun _ => rfl⟩
  · exact ⟨fun hb => absurd hf hb, fun _ => by rw [(readBits_effect h32 s).bw]⟩
  · exact ⟨fun _ => by rw [(writeBits_frame _ _ s).1], fun hb => absurd hf hb⟩
  · exact ⟨fun _ => by rw [raise_br_of_bw], fun hb => absurd hf hb⟩

/-- Settles O34: of a step's cases, only a command could write a fault register, and it keeps one that is set. -/
theorem faultsStayUntilReset : Obligations.FaultsStayUntilReset := by
  intro s t h hreset
  rcases step_cases h with rfl | ⟨w, rest, i, -, -, hx⟩ | ⟨w, rest, -, -, rfl⟩ | ⟨rest, hp, -⟩ |
    ⟨S, e, rest, -, rfl⟩ | ⟨rest, -, rfl⟩
  · exact ⟨fun _ => rfl, fun _ => rfl⟩
  · exact exec_keeps_faults (s := { s with port := rest }) hx
  · exact ⟨fun _ => rfl, fun _ => rfl⟩
  · exact absurd hp (hreset rest)
  · exact ⟨fun _ => rfl, fun _ => rfl⟩
  · exact ⟨fun _ => rfl, fun _ => rfl⟩

/-! ### The frame of each command -/

/-- Settles O38: a command that only answers changes nothing else; a read, a write and a failing FIN stay in their unit. -/
theorem commandsStayInTheirUnit : Obligations.CommandsStayInTheirUnit := by
  intro i s t h
  rcases exec_cases h with ⟨st, d, rfl⟩ | ⟨n, rfl, ⟨-, h32⟩, -, rfl⟩ | ⟨n, v, rfl, -, -, rfl⟩ | ⟨rfl, -, rfl⟩
  · refine ⟨rfl, rfl, rfl, rfl, List.prefix_rfl, List.prefix_append _ _, ?_⟩
    cases i <;> simp
  · have he := readBits_effect h32 s
    obtain ⟨r, hr, -⟩ := he.answer
    exact ⟨he.port, he.ioFaults, he.octets, he.endless, by rw [he.sink], by rw [hr]; exact List.prefix_append _ _,
      he.bw, he.sink, he.snkDraws⟩
  · obtain ⟨hbr, hport, hio, hsrc, hdraws, hsink, hresp⟩ := writeBits_frame n.toNat v.toNat s
    exact ⟨hport, hio, by rw [hsrc], by rw [hsrc], hsink, hresp, hbr, hsrc, hdraws⟩
  · simp

/-- Settles O40: GEO answers `geoResponse`, which reads no state. -/
theorem geoIsPure : Obligations.GeoIsPure :=
  fun N => ⟨geoResponse N.toNat, exec_geo_eq N⟩

end Sys2Proof.Machine
end

section
/-! PROOFS. The two streams (20_memory.md): what a fetch and an emission answer and change, how far a command moves the
streams, what an answered write appends, and that the two units do not interfere. -/

namespace Sys2Proof.Machine

/-! ### The two stream primitives (R51, R52) -/

theorem nextOctet_listed {src : Source} (h : src.sp < src.octets.length) :
    nextOctet src = some (src.octets[src.sp], { src with sp := src.sp + 1 }) := by
  simp [nextOctet, h]

theorem nextOctet_unlisted {src : Source} (h : src.octets.length ≤ src.sp) (he : src.endless = true) :
    nextOctet src =
      some (Config.endlessOctet src.fresh, { src with sp := src.sp + 1, fresh := src.fresh + 1 }) := by
  simp [nextOctet, h, he]

theorem not_canGive_one {src : Source} (h : src.octets.length ≤ src.sp) (he : src.endless = false) :
    ¬ src.canGive 1 := by
  unfold Source.canGive
  simp only [he, Bool.false_eq_true, false_or]
  omega

/-- Settles O18: a fetch that does not fail answers what `nextOctet` gives. -/
theorem srcFetchAnswersTheNextOctet : Obligations.SrcFetchAnswersTheNextOctet := by
  intro s
  refine ⟨fun h hp => ?_, fun h he hp => ?_, fun h he hp => ?_, srcFetch_fail, fun hio hf => ?_⟩
  · exact srcFetch_octet hp (nextOctet_listed h)
  · exact srcFetch_end hp (not_canGive_one h he)
  · exact ⟨_, srcFetch_octet hp (nextOctet_unlisted h he)⟩
  · obtain ⟨-, -, -, -, -, -, -, -, -, -, hfail⟩ := srcFetch_frame (s := s) rfl
    simp [hfail hf] at hio

/-- Settles O19: the two ends of an emission, and no draw is read while `IO_FAULTS` is false. -/
theorem snkEmitAppendsItsOctet : Obligations.SnkEmitAppendsItsOctet := by
  intro b s
  refine ⟨snkEmit_ok, snkEmit_fail, fun hio => ?_⟩
  simp [snkEmit_eq, hio]

/-! ### How far a command moves the streams (R59, R61) -/

theorem writeBits_sink (n v : Nat) (s : State) :
    (writeBits n v s).env.sink = s.env.sink ∨ ∃ b, (writeBits n v s).env.sink = s.env.sink ++ [b] := by
  rcases writeBits_cases n v s with ⟨-, h⟩ | ⟨-, h⟩ | ⟨-, -, h⟩ <;> rw [h]
  · exact .inl rfl
  · exact .inr ⟨_, rfl⟩
  · exact .inl (by rw [raise_env])

/-- Settles O39: only a read moves the source, by at most four octets, and only a write emits, at most one. -/
theorem streamsOnlyMoveForward : Obligations.StreamsOnlyMoveForward := by
  intro i s t h
  rcases exec_cases h with ⟨st, d, rfl⟩ | ⟨n, -, ⟨-, h32⟩, -, rfl⟩ | ⟨n, v, -, -, -, rfl⟩ | ⟨-, -, rfl⟩
  · simp
  · have he := readBits_effect h32 s
    exact ⟨he.sp_ge, he.sp_le, .inl he.sink⟩
  · obtain ⟨-, -, -, hsrc, -⟩ := writeBits_frame n.toNat v.toNat s
    rw [hsrc]
    exact ⟨Nat.le_refl _, Nat.le_add_right _ _, writeBits_sink _ _ _⟩
  · simp

/-! ### What an answered write appends (R54, 42_bit_writer.md R160, R166) -/

/-- The octet a value completes is the accumulator with the value's top bits packed below its filled bits. -/
theorem completedOctet_eq_packBelow (acc : Octet) (free n v : Nat) :
    completedOctet acc free n v = packBelow acc free free (v >>> (n - free)) := by
  simp [completedOctet, packBelow]

/-- Packing n bits below the filled bits appends their digits to the digits of the filled bits. -/
theorem natBits_packBelow {acc : Octet} {used n v : Nat} (hu : n + used ≤ 8) (hv : v < 2 ^ n)
    (hz : acc.toNat % 2 ^ (8 - used) = 0) :
    (natBits 8 (packBelow acc (8 - used) n v).toNat).take (used + n) =
      (natBits 8 acc.toNat).take used ++ natBits n v := by
  obtain ⟨a, ha⟩ := Nat.dvd_of_mod_eq_zero hz
  have hfilled : acc.toNat >>> (8 - used) = a := by
    rw [ha, Nat.shiftRight_eq_div_pow, Nat.mul_div_cancel_left _ (Nat.two_pow_pos _)]
  have hpacked : (packBelow acc (8 - used) n v).toNat >>> (8 - (used + n)) = 2 ^ n * a + v := by
    have hpow : 2 ^ (8 - used) = 2 ^ (8 - used - n) * 2 ^ n := by rw [← pow_add]; congr 1; omega
    rw [packBelow_toNat hu hv hz, ha, hpow, Nat.shiftRight_eq_div_pow, Nat.sub_add_eq, Nat.mul_assoc,
      Nat.mul_comm v, ← Nat.mul_add, Nat.mul_div_cancel_left _ (Nat.two_pow_pos _)]
  have hhigh : (2 ^ n * a + v) >>> n = a := by
    rw [Nat.shiftRight_eq_div_pow, Nat.mul_add_div (Nat.two_pow_pos n), Nat.div_eq_of_lt hv, Nat.add_zero]
  have hlow : natBits n (2 ^ n * a + v) = natBits n v := by
    rw [← natBits_mod (Nat.le_refl n), Nat.mul_add_mod, natBits_mod (Nat.le_refl n)]
  rw [natBits_take (by omega), natBits_take (by omega), hpacked, hfilled, natBits_add, hhigh, hlow]

/-- The r top bits of a fresh accumulator are the low r digits of the value. -/
theorem natBits_leftover {r : Nat} (hr : r ≤ 8) (v : Nat) :
    (natBits 8 (leftover r v).toNat).take r = natBits r v := by
  have hlt : (v % 2 ^ r) * 2 ^ (8 - r) < 2 ^ 8 := by
    rw [show 2 ^ 8 = 2 ^ r * 2 ^ (8 - r) by rw [← pow_add]; congr 1; omega]
    exact Nat.mul_lt_mul_of_pos_right (Nat.mod_lt _ (Nat.two_pow_pos r)) (Nat.two_pow_pos _)
  rw [natBits_take hr, leftover, mask, Nat.and_two_pow_sub_one_eq_mod, Nat.shiftLeft_eq, BitVec.toNat_ofNat,
    Nat.mod_eq_of_lt hlt, Nat.shiftRight_eq_div_pow, Nat.mul_div_cancel _ (Nat.two_pow_pos _),
    natBits_mod (Nat.le_refl r)]

/-- A write that is answered `OK` has legal operands and is executed. -/
theorem exec_wru_ok {n : BitVec 4} {v : BitVec 8} {s t : State} (h : exec (.wru n v) s = .next t)
    (hok : answeredWith .ok s t) :
    n.toNat ≤ 8 ∧ v.toNat < 2 ^ n.toNat ∧ t = writeBits n.toNat v.toNat s := by
  obtain rfl : checked .bw (wruOperandLegal n v) (writeBits n.toNat v.toNat) s = t := by
    simpa [exec, execWru] using h
  rcases checked_cases .bw (wruOperandLegal n v) (writeBits n.toNat v.toNat) s with
    ⟨-, hr⟩ | ⟨-, -, hr⟩ | ⟨hlegal, -, hr⟩
  · exact absurd ((answeredWith_iff (hr ▸ respond_responses ..)).mp hok) (by simp)
  · exact absurd ((answeredWith_iff (hr ▸ respond_responses ..)).mp hok) (by simp)
  · obtain ⟨-, h8, hv⟩ := wruOperandLegal_iff.mp hlegal
    exact ⟨h8, hv, hr⟩

theorem writeBits_appends {n v : Nat} {s : State} (hn : n ≤ 8) (hv : v < 2 ^ n) (hs : Inv s)
    (hok : answeredWith .ok s (writeBits n v s)) :
    bitsOf (writeBits n v s).env.sink ++ (writeBits n v s).bw.residue =
      bitsOf s.env.sink ++ s.bw.residue ++ natBits n v := by
  obtain ⟨-, hused, hacc, -⟩ := hs
  rcases writeBits_cases n v s with ⟨hfit, h⟩ | ⟨hge, h⟩ | ⟨-, -, h⟩
  · have hcur : (BitVec.ofNat 4 (s.bw.bitsUsed.toNat + n)).toNat = s.bw.bitsUsed.toNat + n := by
      rw [BitVec.toNat_ofNat]; omega
    rw [h]
    simp only [respond_env, respond_bw, BitWriter.residue, hcur, natBits_packBelow (by omega) hv hacc,
      List.append_assoc]
  · obtain ⟨r, rfl⟩ := Nat.exists_eq_add_of_le hge
    have hcur : (BitVec.ofNat 4 r).toNat = r := by rw [BitVec.toNat_ofNat]; omega
    have hhigh : v >>> r < 2 ^ (8 - s.bw.bitsUsed.toNat) := by
      rwa [Nat.shiftRight_eq_div_pow, Nat.div_lt_iff_lt_mul (Nat.two_pow_pos r), ← pow_add]
    have hemit := natBits_packBelow (by omega) hhigh hacc
    rw [Nat.add_sub_cancel' (by omega), List.take_of_length_le (by simp)] at hemit
    rw [h]
    simp only [respond_env, respond_bw, BitWriter.residue, Nat.add_sub_cancel_left, hcur,
      natBits_leftover (show r ≤ 8 by omega), completedOctet_eq_packBelow, bitsOf_append, bitsOf_cons, bitsOf_nil,
      hemit, natBits_add _ r v, List.append_assoc, List.nil_append]
  · exact absurd ((answeredWith_iff (h ▸ raise_responses ..)).mp hok) (by simp)

/-- Settles O29: a value that fits extends the residue; one that completes an octet is split between sink and residue. -/
theorem wruAppendsItsBits : Obligations.WruAppendsItsBits := by
  intro n v s t hs h hok
  obtain ⟨hn, hv, rfl⟩ := exec_wru_ok h hok
  exact writeBits_appends hn hv hs hok

/-! ### The two units do not interfere (R67)

A command of one unit reads only that unit's side of the state, and does one and the same update to every state with the same
side, which leaves the other unit's side alone. Two such updates commute up to the order of their responses. -/

/-- `u` has the reader side of `s`: all that RDU reads. -/
structure SameReaderSide (s u : State) : Prop where
  br : u.br = s.br
  source : u.env.source = s.env.source
  ioFaults : u.env.ioFaults = s.env.ioFaults
  srcDraws : u.env.srcDraws = s.env.srcDraws

/-- `u` has the writer side of `s`: all that WRU and FIN read. -/
structure SameWriterSide (s u : State) : Prop where
  bw : u.bw = s.bw
  sink : u.env.sink = s.env.sink
  ioFaults : u.env.ioFaults = s.env.ioFaults
  snkDraws : u.env.snkDraws = s.env.snkDraws

/-- What a reader command leaves: the reader, the source, the draws, and its response. -/
structure ReaderUpdate where
  br : BitReader
  source : Source
  srcDraws : List Bool
  response : Response

/-- What a writer command leaves: the writer, the sink, the draws, and its response. -/
structure WriterUpdate where
  bw : BitWriter
  sink : List Octet
  snkDraws : List Bool
  response : Response

/-- The update of a reader command; it adds the response and leaves the writer side alone. -/
def ReaderUpdate.apply (e : ReaderUpdate) (s : State) : State :=
  { s with br := e.br, env.source := e.source, env.srcDraws := e.srcDraws, responses := s.responses ++ [e.response] }

/-- The update of a writer command; it adds the response and leaves the reader side alone. -/
def WriterUpdate.apply (e : WriterUpdate) (s : State) : State :=
  { s with bw := e.bw, env.sink := e.sink, env.snkDraws := e.snkDraws, responses := s.responses ++ [e.response] }

theorem ReaderUpdate.apply_sameWriterSide (e : ReaderUpdate) (s : State) : SameWriterSide s (e.apply s) :=
  ⟨rfl, rfl, rfl, rfl⟩

theorem WriterUpdate.apply_sameReaderSide (e : WriterUpdate) (s : State) : SameReaderSide s (e.apply s) :=
  ⟨rfl, rfl, rfl, rfl⟩

theorem SameReaderSide.refl (s : State) : SameReaderSide s s := ⟨rfl, rfl, rfl, rfl⟩

theorem SameWriterSide.refl (s : State) : SameWriterSide s s := ⟨rfl, rfl, rfl, rfl⟩

/-- `run` does one and the same update to every state that has the given side of `s`. -/
def IsOneUpdate {ε : Type} (same : State → State → Prop) (apply : ε → State → State) (run : State → State)
    (s : State) : Prop :=
  ∃ e, ∀ u, same s u → run u = apply e u

/-- The checks of R234 read only the unit's fault register. -/
theorem checked_isOneUpdate {ε : Type} {same : State → State → Prop} {apply : ε → State → State} {unit : UnitName}
    {run : State → State} {s : State} (legal : Bool)
    (hfault : ∀ u, same s u → unitFaulted unit u = unitFaulted unit s)
    (hrespond : ∀ st, IsOneUpdate same apply (respond st 0) s) (hrun : IsOneUpdate same apply run s) :
    IsOneUpdate same apply (checked unit legal run) s := by
  cases legal with
  | false =>
    obtain ⟨e, he⟩ := hrespond .illegalOperand
    exact ⟨e, fun u hu => (checked_illegal ..).trans (he u hu)⟩
  | true =>
    cases hf : unitFaulted unit s with
    | false =>
      obtain ⟨e, he⟩ := hrun
      exact ⟨e, fun u hu => (checked_run ((hfault u hu).trans hf)).trans (he u hu)⟩
    | true =>
      obtain ⟨e, he⟩ := hrespond .unitFaulted
      exact ⟨e, fun u hu => (checked_faulted ((hfault u hu).trans hf)).trans (he u hu)⟩

theorem respond_readerUpdate (st : Status) (d : U32) {s u : State} (h : SameReaderSide s u) :
    respond st d u = ReaderUpdate.apply ⟨s.br, s.env.source, s.env.srcDraws, ⟨st, d⟩⟩ u := by
  obtain ⟨hbr, hsrc, -, hdraws⟩ := h
  rw [← hbr, ← hsrc, ← hdraws]
  rfl

theorem respond_writerUpdate (st : Status) (d : U32) {s u : State} (h : SameWriterSide s u) :
    respond st d u = WriterUpdate.apply ⟨s.bw, s.env.sink, s.env.snkDraws, ⟨st, d⟩⟩ u := by
  obtain ⟨hbw, hsink, -, hdraws⟩ := h
  rw [← hbw, ← hsink, ← hdraws]
  rfl

theorem raise_readerUpdate (st : Status) {s u : State} (h : SameReaderSide s u) :
    raise .br st u =
      ReaderUpdate.apply ⟨(recordFault .br st s).br, s.env.source, s.env.srcDraws, ⟨st, 0⟩⟩ u := by
  obtain ⟨hbr, hsrc, -, hdraws⟩ := h
  rw [← hsrc, ← hdraws]
  cases st <;> simp only [raise, recordFault, ← hbr] <;> rfl

theorem raise_writerUpdate (st : Status) {s u : State} (h : SameWriterSide s u) :
    raise .bw st u =
      WriterUpdate.apply ⟨(recordFault .bw st s).bw, s.env.sink, s.env.snkDraws, ⟨st, 0⟩⟩ u := by
  obtain ⟨hbw, hsink, -, hdraws⟩ := h
  rw [← hsink, ← hdraws]
  cases st <;> simp only [raise, recordFault, ← hbw] <;> rfl

theorem SameReaderSide.afterFetches {s u : State} (h : SameReaderSide s u) (m accesses : Nat) (cursor : Cursor) :
    SameReaderSide (afterFetches m accesses cursor s) (afterFetches m accesses cursor u) := by
  obtain ⟨hbr, hsrc, hio, hdraws⟩ := h
  constructor <;> simp only [hbr, hsrc, hio, hdraws]

/-- The three ends of a read (R132, R133, R140) are told apart, and reached, by the reader side alone. -/
theorem readBits_isOneUpdate (n : Nat) (s : State) :
    IsOneUpdate SameReaderSide ReaderUpdate.apply (readBits n) s := by
  rcases fetches_cases (fetchCount n s.br.bitsLeft.toNat) s.env.source s.env.ioFaults s.env.srcDraws with
    ⟨hc, hp⟩ | ⟨m, hm, hc, hn, hp⟩ | ⟨m, hm, hc, hf⟩
  · apply Exists.intro
    intro u h
    rw [readBits_ok (by rwa [h.br, h.source]) (by rwa [h.br, h.ioFaults, h.srcDraws]), h.br, h.source]
    exact respond_readerUpdate _ _ (h.afterFetches _ _ _)
  · apply Exists.intro
    intro u h
    rw [readBits_end (by rwa [h.br]) (by rwa [h.source]) (by rwa [h.source]) (by rwa [h.ioFaults, h.srcDraws]), h.br]
    exact raise_readerUpdate _ (h.afterFetches _ _ _)
  · apply Exists.intro
    intro u h
    rw [readBits_fail (by rwa [h.br]) (by rwa [h.source]) (by rwa [h.ioFaults, h.srcDraws])]
    exact raise_readerUpdate _ (h.afterFetches _ _ _)

theorem passes_one_or_failsAt_zero (io : Bool) (draws : List Bool) : passes io draws 1 ∨ failsAt io draws 0 := by
  by_cases hf : failsAt io draws 0
  · exact .inr hf
  · refine .inl fun hio j hj hd => hf ?_
    obtain rfl : j = 0 := by omega
    exact ⟨hio, by simp, hd⟩

/-- The state a write leaves whose value fits below the filled bits (R161), but for its response. -/
abbrev afterPacking (n v : Nat) (s : State) : State :=
  { s with bw.acc := packBelow s.bw.acc (8 - s.bw.bitsUsed.toNat) n v
           bw.bitsUsed := BitVec.ofNat 4 (s.bw.bitsUsed.toNat + n) }

/-- The state a write leaves that completes an octet and emits it (R161), but for its response. -/
abbrev afterEmission (n v : Nat) (s : State) : State :=
  { s with bw.acc := leftover (n - (8 - s.bw.bitsUsed.toNat)) v
           bw.bitsUsed := BitVec.ofNat 4 (n - (8 - s.bw.bitsUsed.toNat))
           env.sink := s.env.sink ++ [completedOctet s.bw.acc (8 - s.bw.bitsUsed.toNat) n v]
           env.snkDraws := drawsAfter s.env.ioFaults s.env.snkDraws 1 }

/-- The state after an emission that fails (R169), before the failure is recorded. -/
abbrev afterFailedEmission (s : State) : State :=
  { s with env.snkDraws := drawsAfter s.env.ioFaults s.env.snkDraws 1 }

theorem writeBits_fits {n v : Nat} {s : State} (h : n < 8 - s.bw.bitsUsed.toNat) :
    writeBits n v s = respond .ok 0 (afterPacking n v s) := by
  simp [writeBits, h]

theorem writeBits_emits {n v : Nat} {s : State} (h : 8 - s.bw.bitsUsed.toNat ≤ n)
    (hp : passes s.env.ioFaults s.env.snkDraws 1) : writeBits n v s = respond .ok 0 (afterEmission n v s) := by
  simp [writeBits, Nat.not_lt.mpr h, emitCompleted, snkEmit_ok hp]

theorem writeBits_fails {n v : Nat} {s : State} (h : 8 - s.bw.bitsUsed.toNat ≤ n)
    (hf : failsAt s.env.ioFaults s.env.snkDraws 0) : writeBits n v s = raise .bw .io (afterFailedEmission s) := by
  simp [writeBits, Nat.not_lt.mpr h, emitCompleted, snkEmit_fail hf]

section
variable {s u : State} (h : SameWriterSide s u)
include h

theorem SameWriterSide.afterPacking (n v : Nat) : SameWriterSide (afterPacking n v s) (afterPacking n v u) := by
  obtain ⟨hbw, hsink, hio, hdraws⟩ := h
  constructor <;> simp only [hbw, hsink, hio, hdraws]

theorem SameWriterSide.afterEmission (n v : Nat) : SameWriterSide (afterEmission n v s) (afterEmission n v u) := by
  obtain ⟨hbw, hsink, hio, hdraws⟩ := h
  constructor <;> simp only [hbw, hsink, hio, hdraws]

theorem SameWriterSide.afterFailedEmission : SameWriterSide (afterFailedEmission s) (afterFailedEmission u) := by
  obtain ⟨hbw, hsink, hio, hdraws⟩ := h
  constructor <;> simp only [hbw, hsink, hio, hdraws]

end

/-- The three ends of a write (R161, R169) are told apart, and reached, by the writer side alone. -/
theorem writeBits_isOneUpdate (n v : Nat) (s : State) :
    IsOneUpdate SameWriterSide WriterUpdate.apply (writeBits n v) s := by
  by_cases hfit : n < 8 - s.bw.bitsUsed.toNat
  · exact ⟨_, fun u h =>
      (writeBits_fits (by rwa [h.bw])).trans (respond_writerUpdate .ok 0 (h.afterPacking n v))⟩
  · have hfull := Nat.not_lt.mp hfit
    rcases passes_one_or_failsAt_zero s.env.ioFaults s.env.snkDraws with hp | hf
    · exact ⟨_, fun u h =>
        (writeBits_emits (by rwa [h.bw]) (by rwa [h.ioFaults, h.snkDraws])).trans
          (respond_writerUpdate .ok 0 (h.afterEmission n v))⟩
    · exact ⟨_, fun u h =>
        (writeBits_fails (by rwa [h.bw]) (by rwa [h.ioFaults, h.snkDraws])).trans
          (raise_writerUpdate .io h.afterFailedEmission)⟩

theorem finishWrites_isOneUpdate (s : State) : IsOneUpdate SameWriterSide WriterUpdate.apply finishWrites s := by
  by_cases hz : s.bw.bitsUsed.toNat = 0
  · exact ⟨_, fun u h => (if_pos (by rwa [h.bw])).trans (respond_writerUpdate .ok 0 h)⟩
  · exact ⟨_, fun u h => (if_neg (by rwa [h.bw])).trans (raise_writerUpdate .unalignedEnd h)⟩

/-- The checks of BR, then a run that reads the reader side only. -/
theorem exec_rdu_update (n : BitVec 6) (s : State) :
    ∃ e : ReaderUpdate, ∀ u, SameReaderSide s u → exec (.rdu n) u = .next (e.apply u) := by
  obtain ⟨e, he⟩ := checked_isOneUpdate (unit := .br) (rduOperandLegal n)
    (fun u h => by simp only [unitFaulted, h.br])
    (fun st => ⟨_, fun _ h => respond_readerUpdate st 0 h⟩) (readBits_isOneUpdate n.toNat s)
  exact ⟨e, fun u h => congrArg Host.Outcome.next (he u h)⟩

theorem checked_writer_isOneUpdate (legal : Bool) {run : State → State} {s : State}
    (hrun : IsOneUpdate SameWriterSide WriterUpdate.apply run s) :
    IsOneUpdate SameWriterSide WriterUpdate.apply (checked .bw legal run) s :=
  checked_isOneUpdate legal (fun u h => by simp only [unitFaulted, h.bw])
    (fun st => ⟨_, fun _ h => respond_writerUpdate st 0 h⟩) hrun

theorem exec_writer_update {j : Instr} (hj : j = .fin ∨ ∃ m v, j = .wru m v) (s : State) :
    ∃ e : WriterUpdate, ∀ u, SameWriterSide s u → exec j u = .next (e.apply u) := by
  rcases hj with rfl | ⟨m, v, rfl⟩
  · obtain ⟨e, he⟩ := checked_writer_isOneUpdate true (finishWrites_isOneUpdate s)
    exact ⟨e, fun u h => congrArg Host.Outcome.next (he u h)⟩
  · obtain ⟨e, he⟩ := checked_writer_isOneUpdate (wruOperandLegal m v) (writeBits_isOneUpdate m.toNat v.toNat s)
    exact ⟨e, fun u h => congrArg Host.Outcome.next (he u h)⟩

/-- Settles O41: each command does the same update before and after the other, and the two updates write different fields. -/
theorem readerAndWriterCommandsCommute : Obligations.ReaderAndWriterCommandsCommute := by
  refine ⟨fun n j s hj => ?_, fun N s t h => ?_⟩
  · obtain ⟨r, hr⟩ := exec_rdu_update n s
    obtain ⟨w, hw⟩ := exec_writer_update hj s
    exact ⟨r.apply s, w.apply (r.apply s), w.apply s, r.apply (w.apply s), r.response, w.response,
      hr s (.refl s), hw _ (r.apply_sameWriterSide s), hw s (.refl s), hr _ (w.apply_sameReaderSide s),
      rfl, rfl, rfl, rfl, List.append_assoc .., List.append_assoc .., rfl, rfl, rfl, rfl⟩
  · obtain ⟨-, -, -, -, -, -, hframe⟩ := commandsStayInTheirUnit _ s t h
    exact hframe

end Sys2Proof.Machine
end

section
/-! PROOFS. The command words (30_encoding.md): recognising a word and encoding a command are inverse, the rows by match and
mask, decoding as the procedure of R92, what a step does with a word, and the one response of each command. -/

namespace Sys2Proof

/-! ### Recognising a word and encoding a command are inverse (R81 to R83) -/

theorem opField_eq_iff {w : CmdWord} {x : BitVec 4} : opField w = x ↔ w.toNat / 4096 = x.toNat := by
  rw [← BitVec.toNat_inj, opField_toNat]

theorem highField_eq_iff {w : CmdWord} {x : BitVec 4} : highField w = x ↔ w.toNat / 256 % 16 = x.toNat := by
  rw [← BitVec.toNat_inj, highField_toNat]

theorem midField_eq_iff {w : CmdWord} {x : BitVec 2} : midField w = x ↔ w.toNat / 64 % 4 = x.toNat := by
  rw [← BitVec.toNat_inj, midField_toNat]

theorem lowField_eq_iff {w : CmdWord} {x : BitVec 6} : lowField w = x ↔ w.toNat % 64 = x.toNat := by
  rw [← BitVec.toNat_inj, lowField_toNat]

theorem byteField_eq_iff {w : CmdWord} {x : BitVec 8} : byteField w = x ↔ w.toNat % 256 = x.toNat := by
  rw [← BitVec.toNat_inj, byteField_toNat]

/-- A command is recognised in its own word, operands out of range included: each field is read back. -/
theorem recognise_encode (i : Instr) : recognise (encode i) = some i := by
  cases i with
  | rdu n =>
    have hn := n.isLt
    have hop : opField (encode (.rdu n)) = 1 := BitVec.eq_of_toNat_eq (Laws.OpcodeField.rdu n)
    have hhigh : highField (encode (.rdu n)) = 0 := by
      simp only [highField_eq_iff, encode_rdu_toNat, BitVec.ofNat_eq_ofNat, BitVec.toNat_ofNat]; omega
    have hmid : midField (encode (.rdu n)) = 0 := by
      simp only [midField_eq_iff, encode_rdu_toNat, BitVec.ofNat_eq_ofNat, BitVec.toNat_ofNat]; omega
    have hlow : lowField (encode (.rdu n)) = n := by rw [lowField_eq_iff, encode_rdu_toNat]; omega
    simp [recognise, hop, hhigh, hmid, hlow]
  | wru n v =>
    have hn := n.isLt
    have hv := v.isLt
    have hop : opField (encode (.wru n v)) = 2 := BitVec.eq_of_toNat_eq (Laws.OpcodeField.wru n v)
    have hhigh : highField (encode (.wru n v)) = n := by rw [highField_eq_iff, encode_wru_toNat]; omega
    have hbyte : byteField (encode (.wru n v)) = v := by rw [byteField_eq_iff, encode_wru_toNat]; omega
    simp [recognise, hop, hhigh, hbyte]
  | fin => decide
  | geo N =>
    have hN := N.isLt
    have hop : opField (encode (.geo N)) = 4 := BitVec.eq_of_toNat_eq (Laws.OpcodeField.geo N)
    have hhigh : highField (encode (.geo N)) = 0 := by
      simp only [highField_eq_iff, encode_geo_toNat, BitVec.ofNat_eq_ofNat, BitVec.toNat_ofNat]; omega
    have hbyte : byteField (encode (.geo N)) = N := by rw [byteField_eq_iff, encode_geo_toNat]; omega
    simp [recognise, hop, hhigh, hbyte]

/-- A recognised word is the word of its command: the tests of the row and the operands fix every bit. -/
theorem encode_of_recognise {w : CmdWord} {i : Instr} (h : recognise w = some i) : encode i = w := by
  simp only [recognise, opField_eq_iff, highField_eq_iff, midField_eq_iff, byteField_eq_iff, BitVec.ofNat_eq_ofNat,
    BitVec.toNat_ofNat] at h
  apply BitVec.eq_of_toNat_eq
  split_ifs at h with hop hzero hop hop hzero hop hzero <;> obtain rfl := Option.some.inj h
  · rw [encode_rdu_toNat, lowField_toNat]; omega
  · rw [encode_wru_toNat, highField_toNat, byteField_toNat]; omega
  · rw [encode_fin_toNat]; omega
  · rw [encode_geo_toNat, byteField_toNat]; omega

theorem recognise_eq_some_iff {w : CmdWord} {i : Instr} : recognise w = some i ↔ encode i = w :=
  ⟨encode_of_recognise, fun h => h ▸ recognise_encode i⟩

/-- Settles O1: a command is recognised in its own word, and its operands pass the check. -/
theorem encodeThenDecodeReturnsTheCommand : Obligations.EncodeThenDecodeReturnsTheCommand :=
  fun i hi => decode_eq_ok.mpr ⟨recognise_encode i, hi⟩

/-- Settles O2: the converse half of `recognise_eq_some_iff`. -/
theorem recognisedWordsEncodeBack : Obligations.RecognisedWordsEncodeBack :=
  fun _ _ => encode_of_recognise

/-! ### The rows of the opcode table (R83) -/

theorem recognise_eq_rdu_iff {w : CmdWord} {n : BitVec 6} :
    recognise w = some (.rdu n) ↔ w.toNat = 0x1000 + n.toNat := by
  rw [recognise_eq_some_iff, ← BitVec.toNat_inj, encode_rdu_toNat, eq_comm]

theorem recognise_eq_wru_iff {w : CmdWord} {n : BitVec 4} {v : BitVec 8} :
    recognise w = some (.wru n v) ↔ w.toNat = 0x2000 + 256 * n.toNat + v.toNat := by
  rw [recognise_eq_some_iff, ← BitVec.toNat_inj, encode_wru_toNat, eq_comm]

theorem recognise_eq_fin_iff {w : CmdWord} : recognise w = some .fin ↔ w.toNat = 0x3000 := by
  rw [recognise_eq_some_iff, ← BitVec.toNat_inj, encode_fin_toNat, eq_comm]

theorem recognise_eq_geo_iff {w : CmdWord} {N : BitVec 8} :
    recognise w = some (.geo N) ↔ w.toNat = 0x4000 + N.toNat := by
  rw [recognise_eq_some_iff, ← BitVec.toNat_inj, encode_geo_toNat, eq_comm]

/-- A word in RDU's row is recognised with the n of its low six bits. -/
theorem recognise_of_rduRow {w : CmdWord} (h : w.toNat / 64 = 0x40) :
    recognise w = some (.rdu (BitVec.ofNat 6 (w.toNat % 64))) := by
  rw [recognise_eq_rdu_iff, BitVec.toNat_ofNat]; omega

/-- A word in WRU's row is recognised with the n of the next four bits and the v of the low eight. -/
theorem recognise_of_wruRow {w : CmdWord} (h : w.toNat / 4096 = 2) :
    recognise w = some (.wru (BitVec.ofNat 4 (w.toNat / 256 % 16)) (BitVec.ofNat 8 (w.toNat % 256))) := by
  rw [recognise_eq_wru_iff, BitVec.toNat_ofNat, BitVec.toNat_ofNat]; omega

/-- A word in GEO's row is recognised with the N of its low eight bits. -/
theorem recognise_of_geoRow {w : CmdWord} (h : w.toNat / 256 = 0x40) :
    recognise w = some (.geo (BitVec.ofNat 8 (w.toNat % 256))) := by
  rw [recognise_eq_geo_iff, BitVec.toNat_ofNat]; omega

theorem recognise_isRdu_iff {w : CmdWord} : (∃ n, recognise w = some (.rdu n)) ↔ w.toNat / 64 = 0x40 := by
  refine ⟨fun ⟨n, h⟩ => ?_, fun h => ⟨_, recognise_of_rduRow h⟩⟩
  rw [recognise_eq_rdu_iff] at h; omega

theorem recognise_isWru_iff {w : CmdWord} : (∃ n v, recognise w = some (.wru n v)) ↔ w.toNat / 4096 = 2 := by
  refine ⟨fun ⟨n, v, h⟩ => ?_, fun h => ⟨_, _, recognise_of_wruRow h⟩⟩
  rw [recognise_eq_wru_iff] at h; omega

theorem recognise_isGeo_iff {w : CmdWord} : (∃ N, recognise w = some (.geo N)) ↔ w.toNat / 256 = 0x40 := by
  refine ⟨fun ⟨N, h⟩ => ?_, fun h => ⟨_, recognise_of_geoRow h⟩⟩
  rw [recognise_eq_geo_iff] at h; omega

/-- A word is recognised as nothing exactly if it is in none of the four rows (R84). -/
theorem recognise_eq_none_iff {w : CmdWord} :
    recognise w = none ↔ w.toNat / 64 ≠ 0x40 ∧ w.toNat / 4096 ≠ 2 ∧ w.toNat ≠ 0x3000 ∧ w.toNat / 256 ≠ 0x40 := by
  simp only [ne_eq, ← recognise_isRdu_iff, ← recognise_isWru_iff, ← recognise_eq_fin_iff, ← recognise_isGeo_iff]
  refine ⟨fun h => by simp [h], fun ⟨hrdu, hwru, hfin, hgeo⟩ => ?_⟩
  cases hw : recognise w with
  | none => rfl
  | some i =>
    cases i with
    | rdu n => exact absurd ⟨n, hw⟩ hrdu
    | wru n v => exact absurd ⟨n, v, hw⟩ hwru
    | fin => exact absurd hw hfin
    | geo N => exact absurd ⟨N, hw⟩ hgeo

/-- Masking off the low k bits of a word compares the bits from k on. -/
theorem and_highMask_eq_iff (w : CmdWord) (k c : Nat) (hc : c * 2 ^ k < 2 ^ 16) :
    w &&& (BitVec.allOnes 16 <<< k) = BitVec.ofNat 16 (c * 2 ^ k) ↔ w.toNat / 2 ^ k = c := by
  have hw : w.toNat / 2 ^ k * 2 ^ k < 2 ^ 16 := (Nat.div_mul_le_self _ _).trans_lt w.isLt
  rw [← BitVec.shiftLeft_ushiftRight, ← BitVec.toNat_inj, BitVec.toNat_shiftLeft, BitVec.toNat_ushiftRight,
    BitVec.toNat_ofNat, Nat.mod_eq_of_lt hc, Nat.shiftRight_eq_div_pow, Nat.shiftLeft_eq, Nat.mod_eq_of_lt hw,
    Nat.mul_left_inj (Nat.two_pow_pos k).ne']

theorem rduRow_iff (w : CmdWord) : w &&& 0xFFC0 = 0x1000 ↔ w.toNat / 64 = 0x40 :=
  and_highMask_eq_iff w 6 0x40 (by decide)

theorem wruRow_iff (w : CmdWord) : w &&& 0xF000 = 0x2000 ↔ w.toNat / 4096 = 2 :=
  and_highMask_eq_iff w 12 2 (by decide)

theorem eq_finWord_iff (w : CmdWord) : w = 0x3000 ↔ w.toNat = 0x3000 := BitVec.toNat_inj.symm

theorem finRow_iff (w : CmdWord) : w &&& 0xFFFF = 0x3000 ↔ w.toNat = 0x3000 := by
  rw [show (0xFFFF : CmdWord) = BitVec.allOnes 16 from rfl, BitVec.and_allOnes, eq_finWord_iff]

theorem geoRow_iff (w : CmdWord) : w &&& 0xFF00 = 0x4000 ↔ w.toNat / 256 = 0x40 :=
  and_highMask_eq_iff w 8 0x40 (by decide)

/-- Settles O3: each mask compares the leading bits that the row fixes, and the opcodes 0, 5 and above begin no row. -/
theorem rowsMatchByMask : Obligations.RowsMatchByMask := by
  intro w
  rw [rduRow_iff, wruRow_iff, finRow_iff, geoRow_iff]
  refine ⟨recognise_isRdu_iff, recognise_isWru_iff, recognise_eq_fin_iff, recognise_isGeo_iff, fun hop => ?_⟩
  rw [recognise_eq_none_iff]
  omega

/-! ### Decoding (R84, R85, R92) -/

theorem decode_of_recognise_some {w : CmdWord} {i : Instr} (h : recognise w = some i) :
    decode w = if i.wellFormed then .ok i else .error .illegalOperand := by
  simp [decode, h]

theorem rduOperandLegal_ofNat_iff {m : Nat} (h : m < 64) :
    Machine.rduOperandLegal (BitVec.ofNat 6 m) = true ↔ ¬ (m = 0 ∨ m > 32) := by
  rw [Machine.rduOperandLegal_iff, BitVec.toNat_ofNat, Nat.mod_eq_of_lt h]; omega

theorem wruOperandLegal_ofNat_iff {m x : Nat} (hm : m < 16) (hx : x < 256) :
    Machine.wruOperandLegal (BitVec.ofNat 4 m) (BitVec.ofNat 8 x) = true ↔ ¬ (m = 0 ∨ m > 8 ∨ x ≥ 2 ^ m) := by
  rw [Machine.wruOperandLegal_iff, BitVec.toNat_ofNat, BitVec.toNat_ofNat, Nat.mod_eq_of_lt hm, Nat.mod_eq_of_lt hx]
  omega

/-- Settles O4: the row tests in order, each word of a row being recognised with the operands the procedure reads. -/
theorem decodingFollowsTheProcedure : Obligations.DecodingFollowsTheProcedure := by
  intro w
  simp only [rduRow_iff, wruRow_iff, eq_finWord_iff, geoRow_iff]
  split_ifs with hrdu hn hwru hnv hfin hgeo
  · rw [decode_of_recognise_some (recognise_of_rduRow hrdu), wellFormed_rdu, if_neg]
    rwa [rduOperandLegal_ofNat_iff (Nat.mod_lt _ (by decide)), not_not]
  · rw [decode_of_recognise_some (recognise_of_rduRow hrdu), wellFormed_rdu, if_pos]
    rwa [rduOperandLegal_ofNat_iff (Nat.mod_lt _ (by decide))]
  · rw [decode_of_recognise_some (recognise_of_wruRow hwru), wellFormed_wru, if_neg]
    rwa [wruOperandLegal_ofNat_iff (Nat.mod_lt _ (by decide)) (Nat.mod_lt _ (by decide)), not_not]
  · rw [decode_of_recognise_some (recognise_of_wruRow hwru), wellFormed_wru, if_pos]
    rwa [wruOperandLegal_ofNat_iff (Nat.mod_lt _ (by decide)) (Nat.mod_lt _ (by decide))]
  · rw [decode_of_recognise_some (recognise_eq_fin_iff.mpr hfin), wellFormed_fin, if_pos rfl]
  · rw [decode_of_recognise_some (recognise_of_geoRow hgeo), wellFormed_geo, if_pos rfl]
  · exact decode_of_recognise_none (recognise_eq_none_iff.mpr ⟨hrdu, hwru, hfin, hgeo⟩)

/-- Settles O7: the decoder run on the six words. -/
theorem sampleWordsDecode : Obligations.SampleWordsDecode := by
  unfold Obligations.SampleWordsDecode
  decide

end Sys2Proof

namespace Sys2Proof.Machine

/-! ### A step that takes a word (R84, R92, 60_exceptions.md R234) -/

section
variable {s : State} {w : CmdWord} {rest : List HostEvent} (hp : s.port = .command w :: rest)
include hp

theorem step_command : step s = runCommand w { s with port := rest } := by
  simp [step, hp]

theorem step_of_recognise_some {i : Instr} (h : recognise w = some i) : step s = exec i { s with port := rest } := by
  simp [step_command hp, runCommand, h]

theorem step_of_illegalCommand (h : decode w = .error .illegalCommand) :
    step s = .next (respond .illegalCommand 0 { s with port := rest }) := by
  simp [step_command hp, runCommand, decode_eq_illegalCommand.mp h, answerIllegalCommand]

end

/-- Settles O8: the step recognises the word, and `exec` answers a command whose operands `decode` finds out of range. -/
theorem stepRunsTheDecodedCommand : Obligations.StepRunsTheDecodedCommand := by
  intro s w rest hp
  refine ⟨fun i h => ?_, fun h => ?_, step_of_illegalCommand hp⟩
  · obtain ⟨hi, -⟩ := decode_eq_ok.mp h
    exact step_of_recognise_some hp hi
  · obtain ⟨i, hi, hill⟩ := decode_eq_illegalOperand.mp h
    rw [step_of_recognise_some hp hi]
    exact exec_illFormed hill _

/-- Settles O5: the illegal words are those in none of the four rows, written by opcode and `zero` field. -/
theorem illegalWordsAreAnsweredIllegalCommand : Obligations.IllegalWordsAreAnsweredIllegalCommand := by
  intro w
  refine ⟨?_, fun h s rest hp => step_of_illegalCommand hp h⟩
  have hw := w.isLt
  rw [decode_eq_illegalCommand, recognise_eq_none_iff]
  omega

/-! ### The one response of a command (R87, R88, 60_exceptions.md R230, R231) -/

/-- The unit that executes a command (00_scope.md R2). -/
def unitOf : Instr → UnitName
  | .rdu _ => .br
  | .wru _ _ => .bw
  | .fin => .bw
  | .geo _ => .geo

/-- The statuses Table E2 gives a command. -/
def statusesOf : Instr → List Status
  | .rdu _ => [.ok, .endOfStream, .unexpectedEndOfStream, .io, .illegalOperand, .unitFaulted]
  | .wru _ _ => [.ok, .io, .illegalOperand, .unitFaulted]
  | .fin => [.ok, .unalignedEnd, .unitFaulted]
  | .geo _ => [.ok, .invalidAlphabet]

/-- The command's `OK` carries data (R87). -/
def carriesData (i : Instr) : Prop := (∃ n, i = .rdu n) ∨ ∃ N, i = .geo N

/-- `t` is `s` after `i` was answered `r`: one more response, with a status and data Table E2 allows, and the fault registers as
that status sets them in the command's unit. -/
structure CommandAnswer (i : Instr) (s t : State) (r : Response) : Prop where
  responses : t.responses = s.responses ++ [r]
  status : r.status ∈ statusesOf i
  data : r.data ≠ 0 → r.status = .ok ∧ carriesData i
  br_fault : t.br.fault = (recordFault (unitOf i) r.status s).br.fault
  bw_fault : t.bw.fault = (recordFault (unitOf i) r.status s).bw.fault

/-- The fault registers after recording a status are settled by the fault registers before it. -/
theorem recordFault_fault_congr (u : UnitName) (st : Status) {s s' : State} (hbr : s'.br.fault = s.br.fault)
    (hbw : s'.bw.fault = s.bw.fault) :
    (recordFault u st s').br.fault = (recordFault u st s).br.fault ∧
    (recordFault u st s').bw.fault = (recordFault u st s).bw.fault := by
  cases u <;> cases st <;> exact ⟨by simp [recordFault, hbr], by simp [recordFault, hbw]⟩

theorem recordFault_ok (u : UnitName) (s : State) : recordFault u .ok s = s := by cases u <;> rfl

theorem ok_mem_statusesOf (i : Instr) : Status.ok ∈ statusesOf i := by cases i <;> simp [statusesOf]

section
variable {i : Instr} (s s' : State) (hresp : s'.responses = s.responses) (hbr : s'.br.fault = s.br.fault)
  (hbw : s'.bw.fault = s.bw.fault)
include hresp hbr hbw

theorem respond_commandAnswer {d : U32} (hd : d ≠ 0 → carriesData i) : ∃ r, CommandAnswer i s (respond .ok d s') r :=
  ⟨{ status := .ok, data := d },
    { responses := by rw [respond_responses, hresp]
      status := ok_mem_statusesOf i
      data := fun h => ⟨rfl, hd h⟩
      br_fault := by rw [respond_br, hbr, recordFault_ok]
      bw_fault := by rw [respond_bw, hbw, recordFault_ok] }⟩

theorem raise_commandAnswer {st : Status} (hst : st ∈ statusesOf i) :
    ∃ r, CommandAnswer i s (raise (unitOf i) st s') r := by
  obtain ⟨hfbr, hfbw⟩ := recordFault_fault_congr (unitOf i) st hbr hbw
  exact ⟨{ status := st, data := 0 },
    { responses := by rw [raise_responses, hresp]
      status := hst
      data := fun h => absurd rfl h
      br_fault := hfbr
      bw_fault := hfbw }⟩

end

/-- The checks of R234 answer with statuses of the command, or its execution does. -/
theorem checked_commandAnswer (i : Instr) (legal : Bool) (run : State → State) (s : State)
    (hill : legal = false → .illegalOperand ∈ statusesOf i)
    (hfaulted : unitFaulted (unitOf i) s = true → .unitFaulted ∈ statusesOf i)
    (hrun : legal = true → ∃ r, CommandAnswer i s (run s) r) :
    ∃ r, CommandAnswer i s (checked (unitOf i) legal run s) r := by
  rcases checked_cases (unitOf i) legal run s with ⟨hl, h⟩ | ⟨-, hf, h⟩ | ⟨hl, -, h⟩
  · rw [h, ← raise_illegalOperand (unitOf i)]
    exact raise_commandAnswer s s rfl rfl rfl (hill hl)
  · rw [h, ← raise_unitFaulted (unitOf i)]
    exact raise_commandAnswer s s rfl rfl rfl (hfaulted hf)
  · rw [h]
    exact hrun hl

theorem readBits_commandAnswer {n : BitVec 6} (h : n.toNat ≤ 32) (s : State) :
    ∃ r, CommandAnswer (.rdu n) s (readBits n.toNat s) r := by
  have he := readBits_effect h s
  obtain ⟨r, hresp, hst, hdata, -, hfault⟩ := he.answer
  refine ⟨r, hresp, ?_, fun h => ⟨hdata h, .inl ⟨n, rfl⟩⟩, hfault.trans (raise_br_fault r.status s).symm, ?_⟩
  · exact List.mem_append_left [.illegalOperand, .unitFaulted] hst
  · rw [he.bw]
    exact congrArg BitWriter.fault (recordFault_bw_of_br r.status s).symm

theorem writeBits_commandAnswer (n : BitVec 4) (v : BitVec 8) (s : State) :
    ∃ r, CommandAnswer (.wru n v) s (writeBits n.toNat v.toNat s) r := by
  rcases writeBits_cases n.toNat v.toNat s with ⟨-, h⟩ | ⟨-, h⟩ | ⟨-, -, h⟩ <;> rw [h]
  · exact respond_commandAnswer s (afterPacking n.toNat v.toNat s) rfl rfl rfl (absurd rfl)
  · exact respond_commandAnswer s (afterEmission n.toNat v.toNat s) rfl rfl rfl (absurd rfl)
  · exact raise_commandAnswer (i := .wru n v) s (afterFailedEmission s) rfl rfl rfl (by simp [statusesOf])

theorem finishWrites_commandAnswer (s : State) : ∃ r, CommandAnswer .fin s (finishWrites s) r := by
  rcases finishWrites_cases s with h | h <;> rw [h]
  · exact respond_commandAnswer s s rfl rfl rfl (absurd rfl)
  · exact raise_commandAnswer (i := .fin) s s rfl rfl rfl (by simp [statusesOf])

theorem answerGeometry_commandAnswer (N : BitVec 8) (s : State) :
    ∃ r, CommandAnswer (.geo N) s (answerGeometry N.toNat s) r := by
  unfold answerGeometry
  split
  · exact respond_commandAnswer s s rfl rfl rfl fun _ => .inr ⟨N, rfl⟩
  · exact raise_commandAnswer (i := .geo N) s s rfl rfl rfl (by simp [statusesOf])

/-- Each command in each state completes, with one response that follows Table E2. -/
theorem exec_commandAnswer (i : Instr) (s : State) : ∃ t, exec i s = .next t ∧ ∃ r, CommandAnswer i s t r := by
  cases i with
  | rdu n =>
    exact ⟨_, rfl, checked_commandAnswer (.rdu n) (rduOperandLegal n) (readBits n.toNat) s
      (by simp [statusesOf]) (by simp [statusesOf])
      fun hlegal => readBits_commandAnswer (rduOperandLegal_iff.mp hlegal).2 s⟩
  | wru n v =>
    exact ⟨_, rfl, checked_commandAnswer (.wru n v) (wruOperandLegal n v) (writeBits n.toNat v.toNat) s
      (by simp [statusesOf]) (by simp [statusesOf]) fun _ => writeBits_commandAnswer n v s⟩
  | fin =>
    exact ⟨_, rfl, checked_commandAnswer .fin true finishWrites s
      (by simp) (by simp [statusesOf]) fun _ => finishWrites_commandAnswer s⟩
  | geo N =>
    exact ⟨_, rfl, checked_commandAnswer (.geo N) true (answerGeometry N.toNat) s
      (by simp) (by simp [unitOf]) fun _ => answerGeometry_commandAnswer N s⟩

/-- Settles O35: the response of `exec_commandAnswer`, and the response word cut into its two fields. -/
theorem everyCommandIsAnsweredOnce : Obligations.EveryCommandIsAnsweredOnce := by
  refine ⟨fun i s => ?_, fun r => append_toNat _ _⟩
  obtain ⟨t, ht, r, hr⟩ := exec_commandAnswer i s
  exact ⟨t, r, ht, hr.responses, hr.data⟩

/-- A status that answered a command is one Table E2 gives it, and was recorded in the command's unit. -/
theorem exec_answeredWith {i : Instr} {s t : State} {st : Status} (h : exec i s = .next t)
    (hst : answeredWith st s t) :
    st ∈ statusesOf i ∧ t.br.fault = (recordFault (unitOf i) st s).br.fault ∧
    t.bw.fault = (recordFault (unitOf i) st s).bw.fault := by
  obtain ⟨t', ht, r, hr⟩ := exec_commandAnswer i s
  obtain rfl := Host.Outcome.next.inj (ht.symm.trans h)
  obtain rfl := (answeredWith_iff hr.responses).mp hst
  exact ⟨hr.status, hr.br_fault, hr.bw_fault⟩

/-- Settles O36: for each command, the statuses it gives and what `recordFault` does with them. -/
theorem statusesFollowTableE2 : Obligations.StatusesFollowTableE2 := by
  refine ⟨by decide, fun i s t st h hst => ?_⟩
  obtain ⟨hmem, hbr, hbw⟩ := exec_answeredWith h hst
  cases i with
  | rdu n => exact ⟨hmem, hbr.trans (raise_br_fault st s), hbw.trans (congrArg _ (recordFault_bw_of_br st s))⟩
  | wru n v =>
    refine ⟨hmem, hbw.trans ?_, hbr.trans (congrArg _ (recordFault_br_of_bw st s))⟩
    simp only [statusesOf, List.mem_cons, List.not_mem_nil, or_false] at hmem
    rcases hmem with rfl | rfl | rfl | rfl <;> rfl
  | fin =>
    refine ⟨hmem, hbw.trans ?_, hbr.trans (congrArg _ (recordFault_br_of_bw st s))⟩
    simp only [statusesOf, List.mem_cons, List.not_mem_nil, or_false] at hmem
    rcases hmem with rfl | rfl | rfl <;> rfl
  | geo N =>
    exact ⟨hmem, hbr.trans (congrArg (·.br.fault) (recordFault_geo st s)),
      hbw.trans (congrArg (·.bw.fault) (recordFault_geo st s))⟩

end Sys2Proof.Machine
end

section
/-! PROOFS. GEO (40_geometry.md): the valid sizes, the word of B octets and C characters as the smallest alignment, and the
packed answer. -/

namespace Sys2Proof.Machine

/-! ### The valid sizes (R115) -/

theorem mem_validSizes_iff {N : Nat} : N ∈ validSizes ↔ ∃ k, 1 ≤ k ∧ k ≤ 7 ∧ N = 2 ^ k := by
  have hsizes : validSizes = (List.range' 1 7).map (2 ^ ·) := rfl
  rw [hsizes, List.mem_map]
  refine exists_congr fun k => ?_
  rw [List.mem_range'_1]
  omega

/-- The geometry of a word of k-bit characters (R112, R113), for every k. -/
def wordGeometry (k : Nat) : Geometry :=
  { k := k, B := Nat.lcm 8 k / 8, C := Nat.lcm 8 k / 8 * 8 / k }

theorem geometry_two_pow {k : Nat} (h1 : 1 ≤ k) (h7 : k ≤ 7) : geometry (2 ^ k) = some (wordGeometry k) := by
  rw [geometry, if_pos (mem_validSizes_iff.mpr ⟨k, h1, h7, rfl⟩), Nat.log2_two_pow]
  rfl

theorem geometry_eq_none_iff {N : Nat} : geometry N = none ↔ ¬ ∃ k, 1 ≤ k ∧ k ≤ 7 ∧ N = 2 ^ k := by
  rw [← mem_validSizes_iff, geometry]
  split <;> simp [*]

theorem geometry_eq_some_iff {N : Nat} {g : Geometry} :
    geometry N = some g ↔ ∃ k, 1 ≤ k ∧ k ≤ 7 ∧ N = 2 ^ k ∧ g = wordGeometry k := by
  constructor
  · intro h
    obtain ⟨k, h1, h7, rfl⟩ : ∃ k, 1 ≤ k ∧ k ≤ 7 ∧ N = 2 ^ k :=
      not_not.mp fun hN => by simp [geometry_eq_none_iff.mpr hN] at h
    exact ⟨k, h1, h7, rfl, Option.some.inj (h.symm.trans (geometry_two_pow h1 h7))⟩
  · rintro ⟨k, h1, h7, rfl, rfl⟩
    exact geometry_two_pow h1 h7

/-- Settles O15: the valid sizes are these powers of two, and `geometry` answers on them alone. -/
theorem geometryExistsExactlyForPowersOfTwo : Obligations.GeometryExistsExactlyForPowersOfTwo := by
  intro N
  rw [← Option.ne_none_iff_exists', ne_eq, geometry_eq_none_iff, not_not]

/-! ### The smallest alignment (R117) -/

/-- A word has lcm(8, k) bits in octets. -/
theorem eight_mul_wordGeometry_B (k : Nat) : 8 * (wordGeometry k).B = Nat.lcm 8 k :=
  Nat.mul_div_cancel' (Nat.dvd_lcm_left 8 k)

/-- A word has lcm(8, k) bits in characters. -/
theorem mul_wordGeometry_C (k : Nat) : k * (wordGeometry k).C = Nat.lcm 8 k := by
  have hbits : (wordGeometry k).C = Nat.lcm 8 k / k :=
    congrArg (· / k) (Nat.div_mul_cancel (Nat.dvd_lcm_left 8 k))
  rw [hbits, Nat.mul_div_cancel' (Nat.dvd_lcm_right 8 k)]

section
variable {k : Nat} (hk : 0 < k)

/-- The numbers of octets that end on a character boundary are the multiples of B. -/
theorem dvd_eight_mul_iff {j : Nat} : k ∣ 8 * j ↔ (wordGeometry k).B ∣ j := by
  rw [← Nat.mul_dvd_mul_iff_left (a := 8) (c := j) (by decide), eight_mul_wordGeometry_B, Nat.lcm_dvd_iff]
  exact (and_iff_right (Nat.dvd_mul_right 8 j)).symm

include hk

/-- The numbers of characters that end on an octet boundary are the multiples of C. -/
theorem eight_dvd_mul_iff {i : Nat} : 8 ∣ k * i ↔ (wordGeometry k).C ∣ i := by
  rw [← Nat.mul_dvd_mul_iff_left (c := i) hk, mul_wordGeometry_C, Nat.lcm_dvd_iff]
  exact (and_iff_left (Nat.dvd_mul_right k i)).symm

theorem wordGeometry_B_le : (wordGeometry k).B ≤ k :=
  Nat.le_of_dvd hk (dvd_eight_mul_iff.mp (Nat.dvd_mul_left k 8))

theorem wordGeometry_C_dvd_eight : (wordGeometry k).C ∣ 8 :=
  (eight_dvd_mul_iff hk).mp (Nat.dvd_mul_left 8 k)

theorem wordGeometry_C_le : (wordGeometry k).C ≤ 8 :=
  Nat.le_of_dvd (by decide) (wordGeometry_C_dvd_eight hk)

theorem wordGeometry_B_pos : 0 < (wordGeometry k).B :=
  Nat.pos_of_dvd_of_pos (dvd_eight_mul_iff.mp (Nat.dvd_mul_left k 8)) hk

theorem wordGeometry_C_pos : 0 < (wordGeometry k).C :=
  Nat.pos_of_dvd_of_pos (wordGeometry_C_dvd_eight hk) (by decide)

/-- Characters narrower than an octet need at least two to fill one. -/
theorem two_le_wordGeometry_C (h7 : k ≤ 7) : 2 ≤ (wordGeometry k).C := by
  by_contra hC
  have hone : (wordGeometry k).C = 1 := by have := wordGeometry_C_pos hk; omega
  have hdvd : 8 ∣ k * 1 := (eight_dvd_mul_iff hk).mpr hone.dvd
  omega

/-- An odd k shares no factor with 8, so that C is a multiple of 8. -/
theorem wordGeometry_C_of_odd (hodd : k % 2 = 1) : (wordGeometry k).C = 8 := by
  have hcop : Nat.Coprime 8 k := Nat.Coprime.pow_left 3 (Nat.coprime_two_left.mpr (Nat.odd_iff.mpr hodd))
  have hdvd : 8 ∣ k * (wordGeometry k).C := (eight_dvd_mul_iff hk).mpr (dvd_refl _)
  exact Nat.dvd_antisymm (wordGeometry_C_dvd_eight hk) (hcop.dvd_of_dvd_mul_left hdvd)

end

/-- Settles O17: the aligned numbers of octets and of characters are the multiples of B and of C. -/
theorem geometryIsTheSmallestAlignment : Obligations.GeometryIsTheSmallestAlignment := by
  intro N g h
  obtain ⟨k, hk, h7, -, rfl⟩ := geometry_eq_some_iff.mp h
  have hB := wordGeometry_B_pos hk
  have hC := wordGeometry_C_pos hk
  refine ⟨(eight_mul_wordGeometry_B k).trans (mul_wordGeometry_C k).symm, eight_mul_wordGeometry_B k,
    ⟨hC, Nat.mod_eq_zero_of_dvd ((eight_dvd_mul_iff hk).mpr (dvd_refl _)), fun i hi hlt hmod => ?_⟩,
    ⟨hB, Nat.mod_eq_zero_of_dvd (dvd_eight_mul_iff.mpr (dvd_refl _)), fun j hj hlt hmod => ?_⟩,
    ⟨hB, (wordGeometry_B_le hk).trans h7, two_le_wordGeometry_C hk h7, wordGeometry_C_le hk⟩,
    wordGeometry_C_of_odd hk⟩
  · exact Nat.not_dvd_of_pos_of_lt hi hlt ((eight_dvd_mul_iff hk).mp (Nat.dvd_of_mod_eq_zero hmod))
  · exact Nat.not_dvd_of_pos_of_lt hj hlt (dvd_eight_mul_iff.mp (Nat.dvd_of_mod_eq_zero hmod))

/-! ### The packed answer (R110, R114, 30_encoding.md R89) -/

/-- Three results below 16 are packed as the digits of a number to base 16. -/
theorem packGeometry_eq {g : Geometry} (hk : g.k < 16) (hB : g.B < 16) (hC : g.C < 16) :
    packGeometry g = BitVec.ofNat 32 (g.k + 16 * g.B + 256 * g.C) := by
  apply BitVec.eq_of_toNat_eq
  simp only [packGeometry, BitVec.toNat_setWidth, append_toNat, BitVec.toNat_ofNat]
  omega

theorem exec_geo_two_pow {N : BitVec 8} {k : Nat} (h1 : 1 ≤ k) (h7 : k ≤ 7) (hN : N.toNat = 2 ^ k) (s : State) :
    exec (.geo N) s = .next (answered .ok
      (BitVec.ofNat 32 ((wordGeometry k).k + 16 * (wordGeometry k).B + 256 * (wordGeometry k).C)) s) := by
  have hB := wordGeometry_B_le h1
  have hC := wordGeometry_C_le h1
  have hpack := packGeometry_eq (g := wordGeometry k) (show k < 16 by omega) (by omega) (by omega)
  rw [exec_geo_eq, hN, geoResponse, geometry_two_pow h1 h7, ← hpack]
  rfl

theorem exec_geo_invalid {N : BitVec 8} (h : ¬ ∃ k, 1 ≤ k ∧ k ≤ 7 ∧ N.toNat = 2 ^ k) (s : State) :
    exec (.geo N) s = .next (answered .invalidAlphabet 0 s) := by
  rw [exec_geo_eq, geoResponse, geometry_eq_none_iff.mpr h]
  rfl

/-- Settles O14: a valid size is answered its packed word geometry, every other N `InvalidAlphabet`. -/
theorem geoAnswersTheWordGeometry : Obligations.GeoAnswersTheWordGeometry :=
  fun _ s => ⟨fun _ h1 h7 hN => exec_geo_two_pow h1 h7 hN s, fun h => exec_geo_invalid h s⟩

/-- Settles O16: the packed answer for k = 1, …, 7. -/
theorem geoTable : Obligations.GeoTable := fun s =>
  ⟨exec_geo_two_pow (k := 1) (by decide) (by decide) rfl s,
   exec_geo_two_pow (k := 2) (by decide) (by decide) rfl s,
   exec_geo_two_pow (k := 3) (by decide) (by decide) rfl s,
   exec_geo_two_pow (k := 4) (by decide) (by decide) rfl s,
   exec_geo_two_pow (k := 5) (by decide) (by decide) rfl s,
   exec_geo_two_pow (k := 6) (by decide) (by decide) rfl s,
   exec_geo_two_pow (k := 7) (by decide) (by decide) rfl s⟩

end Sys2Proof.Machine
end

section
/-! PROOFS. RDU (41_bit_reader.md): the operand check, the four ends of a read and the state after each, the loop of R130, and
reads in sequence as pieces of the source's bit string. -/

namespace Sys2Proof.Machine

/-! ### Operands out of range (R141, R163) -/

/-- A command with an operand out of range is recognised in its word and fails check 2 of R234. -/
theorem decode_encode_illFormed {i : Instr} (h : i.wellFormed = false) : decode (encode i) = .error .illegalOperand :=
  decode_eq_illegalOperand.mpr ⟨i, recognise_encode i, h⟩

/-- Settles O6: both checks of an operand, the decoder's and the command's own, say `wellFormed`. -/
theorem outOfRangeOperandsAreAnsweredIllegalOperand : Obligations.OutOfRangeOperandsAreAnsweredIllegalOperand := by
  refine ⟨fun n s hn => ?_, fun n v s hnv => ?_, fun v => ?_⟩
  · have hill : (Instr.rdu n).wellFormed = false := by
      rw [wellFormed_rdu, ← Bool.not_eq_true, rduOperandLegal_iff]; omega
    exact ⟨decode_encode_illFormed hill, exec_illFormed hill s⟩
  · have hill : (Instr.wru n v).wellFormed = false := by
      rw [wellFormed_wru, ← Bool.not_eq_true, wruOperandLegal_iff]; omega
    exact ⟨decode_encode_illFormed hill, exec_illFormed hill s⟩
  · exact encodeThenDecodeReturnsTheCommand _ (wruOperandLegal_iff.mpr ⟨by decide, by decide, v.isLt⟩)

/-! ### What executes a read -/

/-- A legal read of a reader that is not faulted passes the checks of R234. -/
theorem exec_rdu_run {n : BitVec 6} {s : State} (hf : s.br.fault = .none) (h1 : 1 ≤ n.toNat) (h32 : n.toNat ≤ 32) :
    exec (.rdu n) s = .next (readBits n.toNat s) := by
  simp only [exec, execRdu]
  rw [rduOperandLegal_iff.mpr ⟨h1, h32⟩, checked_run (by simp [unitFaulted, hf])]

/-- A legal read of a faulted reader ends at check 3 of R234. -/
theorem exec_rdu_faulted {n : BitVec 6} {s : State} (hf : s.br.fault ≠ .none) (h1 : 1 ≤ n.toNat) (h32 : n.toNat ≤ 32) :
    exec (.rdu n) s = .next (respond .unitFaulted 0 s) := by
  simp only [exec, execRdu]
  rw [rduOperandLegal_iff.mpr ⟨h1, h32⟩, checked_faulted (unitFaulted_br.mpr hf)]

/-- A read answered with a status that neither check of R234 gives was executed. -/
theorem exec_rdu_executed {n : BitVec 6} {s t : State} {st : Status} (h : exec (.rdu n) s = .next t)
    (hst : answeredWith st s t) (hill : st ≠ .illegalOperand) (hfaulted : st ≠ .unitFaulted) :
    (1 ≤ n.toNat ∧ n.toNat ≤ 32) ∧ s.br.fault = .none ∧ t = readBits n.toNat s := by
  obtain rfl : checked .br (rduOperandLegal n) (readBits n.toNat) s = t := by simpa [exec, execRdu] using h
  rcases checked_cases .br (rduOperandLegal n) (readBits n.toNat) s with ⟨-, hr⟩ | ⟨-, -, hr⟩ | ⟨hn, hf, hr⟩
  · exact absurd ((answeredWith_iff (hr ▸ respond_responses ..)).mp hst) hill
  · exact absurd ((answeredWith_iff (hr ▸ respond_responses ..)).mp hst) hfaulted
  · exact ⟨rduOperandLegal_iff.mp hn, by simpa [unitFaulted] using hf, hr⟩

/-! ### The number of fetches of a read, and its value (R137) -/

theorem fetchCount_le_four {n left : Nat} (h : n ≤ 32) : fetchCount n left ≤ 4 := by
  unfold fetchCount; split <;> omega

/-- The bits a read can use up are enough for it. -/
theorem le_fetched (n left : Nat) : n ≤ 8 * fetchCount n left + left := by
  unfold fetchCount; split <;> omega

/-- A read that fetches leaves less than an octet. -/
theorem fetched_lt_add_eight {n left : Nat} (h : 0 < fetchCount n left) : 8 * fetchCount n left + left < n + 8 := by
  have hl := fetchCount_pos h
  rw [fetchCount_spanning hl]; omega

theorem natOfBits_take_lt (n : Nat) (bits : List Bool) : natOfBits (bits.take n) < 2 ^ n :=
  (natOfBits_lt _).trans_le (Nat.pow_le_pow_right (by decide) (List.length_take_le n bits))

theorem canGive_of_pos {src : Source} {m : Nat} (h0 : src.canGive 0) (h : 0 < m → src.canGive m) : src.canGive m := by
  rcases Nat.eq_zero_or_pos m with rfl | hm
  · exact h0
  · exact h hm

/-! ### The ends of a read (R131 to R135, R140) -/

/-- Settles O20: the buffered case of R131. -/
theorem rduServedFromTheBuffer : Obligations.RduServedFromTheBuffer := by
  intro n s hf h1 hn h8
  rw [exec_rdu_run hf h1 (by omega), readBits_buffered hn, finishRead_eq hn]
  simp [respond]

/-- Settles O21: the successful end of a read, with the bounds on its value and its fetches. -/
theorem rduReturnsTheNextBits : Obligations.RduReturnsTheNextBits := by
  intro n s _ hf h1 h32 left f fetched value hc hp
  refine ⟨?_, natOfBits_take_lt _ _, fetchCount_le_four h32, (sourceAfter_frame f s.env.source).2.2 hc⟩
  rw [exec_rdu_run hf h1 h32, readBits_ok (fun _ => hc) hp]
  rfl

/-- Settles O24: a read that meets the end of the source after m octets, with a bit gathered. -/
theorem unexpectedEndLeavesAnEmptyFaultedReader : Obligations.UnexpectedEndLeavesAnEmptyFaultedReader := by
  intro n m s _ hf h32 left hm hc hn hgot hp
  have hl := fetchCount_pos hm
  rw [exec_rdu_run hf (by omega) h32, readBits_end hm (fun _ => hc) hn hp, if_pos hgot]
  rfl

/-- The status of a read says at which of its fetches it ended and how. -/
theorem readBits_status {n : Nat} {s : State} {st : Status} (h : answeredWith st s (readBits n s)) :
    let left := s.br.bitsLeft.toNat
    let src := s.env.source
    (st = .ok ∧ (0 < fetchCount n left → src.canGive (fetchCount n left)) ∧
      passes s.env.ioFaults s.env.srcDraws (fetchCount n left)) ∨
    (∃ m < fetchCount n left, st = (if 0 < left + m then .unexpectedEndOfStream else .endOfStream) ∧
      (0 < m → src.canGive m) ∧ ¬ src.canGive (m + 1) ∧ passes s.env.ioFaults s.env.srcDraws (m + 1)) ∨
    (∃ m < fetchCount n left, st = .io ∧ failsAt s.env.ioFaults s.env.srcDraws m) := by
  rcases fetches_cases (fetchCount n s.br.bitsLeft.toNat) s.env.source s.env.ioFaults s.env.srcDraws with
    ⟨hc, hp⟩ | ⟨m, hm, hc, hn, hp⟩ | ⟨m, hm, hc, hf⟩
  · exact .inl ⟨(answeredWith_iff (readBits_ok hc hp ▸ respond_responses ..)).mp h, hc, hp⟩
  · exact .inr (.inl ⟨m, hm, (answeredWith_iff (readBits_end hm hc hn hp ▸ raise_responses ..)).mp h, hc, hn, hp⟩)
  · exact .inr (.inr ⟨m, hm, (answeredWith_iff (readBits_fail hm hc hf ▸ raise_responses ..)).mp h, hf⟩)

/-- Settles O25: a read whose fetch fails after m octets; and only a failing fetch answers `Io`. -/
theorem failedFetchLeavesAnIoFault : Obligations.FailedFetchLeavesAnIoFault := by
  refine ⟨fun n m s _ hf h32 hm hc hfail => ?_, fun n s t h hio => ?_⟩
  · have hl := fetchCount_pos hm
    rw [exec_rdu_run hf (by omega) h32, readBits_fail hm (fun _ => hc) hfail]
    rfl
  · obtain ⟨-, -, rfl⟩ := exec_rdu_executed h hio (by decide) (by decide)
    rcases readBits_status hio with ⟨hst, -⟩ | ⟨m, -, hst, -⟩ | ⟨m, -, -, hfail⟩
    · simp at hst
    · split at hst <;> simp at hst
    · exact hfail.1

/-- A read at a byte boundary of an ended source uses up the draw of its one fetch, and nothing else (R133, R134). -/
theorem readBits_endOfStream {n : Nat} {s : State} (h1 : 1 ≤ n) (hl : s.br.bitsLeft.toNat = 0)
    (hn : ¬ s.env.source.canGive 1) (hp : passes s.env.ioFaults s.env.srcDraws 1) :
    readBits n s =
      respond .endOfStream 0 { s with env.srcDraws := drawsAfter s.env.ioFaults s.env.srcDraws 1 } := by
  have hm : 0 < fetchCount n s.br.bitsLeft.toNat := by rw [fetchCount_spanning (by omega)]; omega
  have hz : (0 : Cursor) = s.br.bitsLeft := (BitVec.eq_of_toNat_eq hl).symm
  rw [readBits_end hm (by omega) hn hp, if_neg (by omega), raise_endOfStream, hz]
  rfl

theorem readBits_answers_endOfStream_iff {n : Nat} {s : State} (h1 : 1 ≤ n) :
    answeredWith .endOfStream s (readBits n s) ↔
      s.br.bitsLeft.toNat = 0 ∧ ¬ s.env.source.canGive 1 ∧ passes s.env.ioFaults s.env.srcDraws 1 := by
  constructor
  · intro h
    rcases readBits_status h with ⟨hst, -⟩ | ⟨m, -, hst, -, hn, hp⟩ | ⟨m, -, hst, -⟩
    · simp at hst
    · obtain ⟨hl, rfl⟩ : s.br.bitsLeft.toNat = 0 ∧ m = 0 := by
        split at hst
        · simp at hst
        · omega
      exact ⟨hl, hn, hp⟩
    · simp at hst
  · rintro ⟨hl, hn, hp⟩
    rw [readBits_endOfStream h1 hl hn hp]
    exact ⟨0, rfl⟩

theorem readBits_answers_unexpectedEndOfStream_iff {n : Nat} {s : State} (h0 : s.env.source.canGive 0) :
    answeredWith .unexpectedEndOfStream s (readBits n s) ↔
      ∃ m < fetchCount n s.br.bitsLeft.toNat, 0 < s.br.bitsLeft.toNat + m ∧ s.env.source.canGive m ∧
        ¬ s.env.source.canGive (m + 1) ∧ passes s.env.ioFaults s.env.srcDraws (m + 1) := by
  constructor
  · intro h
    rcases readBits_status h with ⟨hst, -⟩ | ⟨m, hm, hst, hc, hn, hp⟩ | ⟨m, -, hst, -⟩
    · simp at hst
    · split at hst
      · exact ⟨m, hm, ‹_›, canGive_of_pos h0 hc, hn, hp⟩
      · simp at hst
    · simp at hst
  · rintro ⟨m, hm, hgot, hc, hn, hp⟩
    rw [readBits_end hm (fun _ => hc) hn hp, if_pos hgot]
    exact ⟨0, raise_responses ..⟩

/-- Settles O22: the two iffs above, and the fault that Table E2 records. -/
theorem endOfStreamExactlyAtAByteBoundary : Obligations.EndOfStreamExactlyAtAByteBoundary := by
  intro n s ⟨_, _, _, hsp⟩ hf h1 h32
  have hx := exec_rdu_run hf h1 h32
  exact ⟨_, hx, readBits_answers_endOfStream_iff h1, readBits_answers_unexpectedEndOfStream_iff (canGive_zero hsp),
    fun h => (exec_answeredWith hx h).2.1⟩

/-- Settles O23: the end of the source at a byte boundary. -/
theorem endOfStreamChangesNothing : Obligations.EndOfStreamChangesNothing :=
  fun _ _ hf h1 h32 hl hn hp => (exec_rdu_run hf h1 h32).trans (congrArg _ (readBits_endOfStream h1 hl hn hp))

/-- Settles O26: the state after `EndOfStream` is again at a byte boundary of the same ended source. -/
theorem endOfStreamRepeats : Obligations.EndOfStreamRepeats := by
  intro n m s t h hst
  obtain ⟨⟨h1, -⟩, hf, rfl⟩ := exec_rdu_executed h hst (by decide) (by decide)
  obtain ⟨hl, hn, hp⟩ := (readBits_answers_endOfStream_iff h1).mp hst
  rw [readBits_endOfStream h1 hl hn hp]
  exact ⟨hf, fun h1 h32 hp' => ⟨_, endOfStreamChangesNothing m _ hf h1 h32 hl hn hp', ⟨0, rfl⟩, rfl, rfl⟩⟩

/-! ### The loop of R130 -/

/-- A read of `need` more bits from any buffer, with `acc` gathered before and `got` saying whether that was a bit: the buffered
case of R131, or all buffered bits first and then the source (R132). -/
def readFrom (acc need : Nat) (got : Bool) (s : State) : State :=
  let left := s.br.bitsLeft.toNat
  if need ≤ left then finishRead acc need s
  else
    fetchRest ((need - left - 1) / 8) (acc <<< left ||| topUnconsumed s.br.buf left left) (need - left)
      (got || decide (0 < left)) { s with br.bitsLeft := 0 }

theorem readFrom_start (n : Nat) (s : State) : readFrom 0 n false s = readBits n s := by
  simp [readFrom, readBits]

theorem readFrom_buffered {acc need : Nat} {got : Bool} {s : State} (h : need ≤ s.br.bitsLeft.toNat) :
    readFrom acc need got s = finishRead acc need s := if_pos h

theorem topUnconsumed_all (buf : Octet) (left : Nat) : topUnconsumed buf left left = buf.toNat % 2 ^ left := by
  simp [topUnconsumed]

/-- An octet that is fetched fills the buffer for the rest of the read. -/
theorem fetchRest_octet {acc need : Nat} {got : Bool} {s s1 : State} {b : Octet} (hs : srcFetch s = (.octet b, s1)) :
    fetchRest ((need - 1) / 8) acc need got s = readFrom acc need got (fillBuffer b s1) := by
  by_cases h8 : need ≤ 8
  · rw [readFrom_buffered (s := fillBuffer b s1) h8, show (need - 1) / 8 = 0 by omega, fetchRest, hs]
  · have hall : topUnconsumed b 8 8 = b.toNat := (topUnconsumed_all b 8).trans (Nat.mod_eq_of_lt b.isLt)
    rw [show (need - 1) / 8 = (need - 8 - 1) / 8 + 1 by omega, fetchRest, hs]
    simp [readFrom, fillBuffer, h8, hall]

theorem fetchRest_endOfSource {whole acc need : Nat} {got : Bool} {s s1 : State}
    (hs : srcFetch s = (.endOfSource, s1)) :
    fetchRest whole acc need got s =
      if got then raise .br .unexpectedEndOfStream s1 else raise .br .endOfStream s1 := by
  cases whole <;> rw [fetchRest, hs]

theorem fetchRest_failed {whole acc need : Nat} {got : Bool} {s s1 : State} (hs : srcFetch s = (.fail, s1)) :
    fetchRest whole acc need got s = raise .br .io s1 := by
  cases whole <;> rw [fetchRest, hs]

/-- The bits gathered by a pass that finds too few: R130 writes apart the empty buffer, which has none. -/
theorem gather_eq (acc : Nat) (buf : Octet) (left : Nat) :
    (if left > 0 then acc <<< left ||| buf.toNat % 2 ^ left else acc) =
      acc <<< left ||| topUnconsumed buf left left := by
  rw [topUnconsumed_all]
  split
  · rfl
  · obtain rfl : left = 0 := by omega
    simp [Nat.mod_one]

/-- Enough passes for the bits needed do what the read does: each pass after the first starts with a full buffer. -/
theorem rduLoop_eq_readFrom (passes acc need : Nat) (got : Bool) (s : State)
    (h : need ≤ s.br.bitsLeft.toNat + 8 * passes) :
    rduLoop (passes + 1) acc need got s = some (readFrom acc need got s) := by
  induction passes generalizing acc need got s with
  | zero => rw [rduLoop, readFrom_buffered h]; exact if_pos h
  | succ passes ih =>
    by_cases hle : need ≤ s.br.bitsLeft.toNat
    · rw [rduLoop, readFrom_buffered hle]; exact if_pos hle
    · have hneed : (if s.br.bitsLeft.toNat > 0 then need - s.br.bitsLeft.toNat else need) =
          need - s.br.bitsLeft.toNat := by split <;> omega
      have hgot : (if s.br.bitsLeft.toNat > 0 then true else got) = (got || decide (0 < s.br.bitsLeft.toNat)) := by
        split <;> simp [*]
      rw [rduLoop, readFrom]
      simp only [ge_iff_le, if_neg hle, gather_eq, hneed, hgot]
      rcases hs : srcFetch { s with br.bitsLeft := 0 } with ⟨_ | _ | _, s1⟩
      · rw [fetchRest_octet hs]
        exact ih _ _ _ (fillBuffer _ s1) (show _ ≤ 8 + 8 * passes by omega)
      · rw [fetchRest_endOfSource hs]
        cases got || decide (0 < s.br.bitsLeft.toNat) <;> rfl
      · rw [fetchRest_failed hs]
        rfl

/-- Settles O27: five passes serve 32 bits, since each but the first adds an octet. -/
theorem rduFollowsTheLoop : Obligations.RduFollowsTheLoop := by
  intro n s _ h1 h32
  refine ⟨fun hf => ?_, fun hf => ⟨_, ?_, exec_rdu_run hf h1 h32⟩⟩
  · exact exec_rdu_faulted hf h1 h32
  · rw [rduLoop_eq_readFrom 4 0 n.toNat false s (by omega), readFrom_start]

/-! ### Reads in sequence (R136) -/

/-- The fetches of two reads in sequence are those of one read of both widths. -/
theorem fetchCount_add (n total left : Nat) :
    fetchCount (n + total) left =
      fetchCount n left + fetchCount total (8 * fetchCount n left + left - n) := by
  unfold fetchCount
  split_ifs <;> omega

/-- A read is answered `OK` if and only if the source can serve all its fetches and none of them fails. -/
theorem readBits_answers_ok_iff {n : Nat} {s : State} (h0 : s.env.source.canGive 0) :
    answeredWith .ok s (readBits n s) ↔
      s.env.source.canGive (fetchCount n s.br.bitsLeft.toNat) ∧
        passes s.env.ioFaults s.env.srcDraws (fetchCount n s.br.bitsLeft.toNat) := by
  constructor
  · intro h
    rcases readBits_status h with ⟨-, hc, hp⟩ | ⟨m, -, hst, -⟩ | ⟨m, -, hst, -⟩
    · exact ⟨canGive_of_pos h0 hc, hp⟩
    · split at hst <;> simp at hst
    · simp at hst
  · rintro ⟨hc, hp⟩
    rw [readBits_ok (fun _ => hc) hp]
    exact ⟨_, respond_responses ..⟩

/-- The unconsumed bits after f fetches are the last of the bits before and the fetched ones, if they are in one octet. -/
theorem natBits_lastOctet {left : Nat} {buf : Octet} {fetched : List Octet} {n : Nat} (hn : n ≤ 8 * fetched.length + left)
    (h8 : 0 < fetched.length → 8 * fetched.length + left < n + 8) :
    natBits (8 * fetched.length + left - n) (fetched.getLastD buf).toNat =
      (natBits left buf.toNat ++ bitsOf fetched).drop n := by
  rcases List.eq_nil_or_concat fetched with rfl | ⟨init, b, rfl⟩
  · simp only [List.length_nil, Nat.mul_zero, Nat.zero_add] at hn
    simp [natBits_drop hn]
  · simp only [List.concat_eq_append, List.length_append, List.length_singleton] at hn h8 ⊢
    have hpre : (natBits left buf.toNat ++ bitsOf init).length = 8 * init.length + left := by simp; omega
    rw [bitsOf_append, ← List.append_assoc, List.drop_append, List.drop_of_length_le (by omega), hpre]
    simp only [bitsOf_cons, bitsOf_nil, List.append_nil, List.nil_append]
    rw [natBits_drop (by omega), List.getLastD_concat]
    congr 1
    omega

/-- What a read of n bits that is answered `OK` leaves for the reads after it, and the value it answers. -/
structure ReadOk (n : Nat) (s u : State) (r : Response) : Prop where
  status : r.status = .ok
  canGive : s.env.source.canGive (fetchCount n s.br.bitsLeft.toNat)
  source : u.env.source = sourceAfter (fetchCount n s.br.bitsLeft.toNat) s.env.source
  ioFaults : u.env.ioFaults = s.env.ioFaults
  fault : u.br.fault = .none
  bitsLeft : u.br.bitsLeft.toNat = 8 * fetchCount n s.br.bitsLeft.toNat + s.br.bitsLeft.toNat - n
  unconsumed : u.br.unconsumed =
    (s.br.unconsumed ++ bitsOf (upcoming (fetchCount n s.br.bitsLeft.toNat) s.env.source)).drop n
  data : r.data.toNat =
    natOfBits ((s.br.unconsumed ++ bitsOf (upcoming (fetchCount n s.br.bitsLeft.toNat) s.env.source)).take n)

/-- The cursor after a read fits its register: a read that fetches leaves less than an octet (R33). -/
theorem cursor_after_read (n : Nat) (left : Cursor) :
    (BitVec.ofNat 4 (8 * fetchCount n left.toNat + left.toNat - n)).toNat =
      8 * fetchCount n left.toNat + left.toNat - n := by
  rw [BitVec.toNat_ofNat, Nat.mod_eq_of_lt]
  rcases Nat.eq_zero_or_pos (fetchCount n left.toNat) with hz | hpos
  · rw [hz]; have := left.isLt; omega
  · have := fetched_lt_add_eight hpos; omega

/-- An answered read that succeeds, from the successful end `readBits_ok`. -/
theorem exec_rdu_ok {n : BitVec 6} {s u : State} {r : Response} (h0 : s.env.source.canGive 0)
    (hx : exec (.rdu n) s = .next u) (hr : u.responses = s.responses ++ [r]) (hok : r.status = .ok) :
    ReadOk n.toNat s u r := by
  have hst : answeredWith .ok s u := (answeredWith_iff hr).mpr hok.symm
  obtain ⟨⟨h1, h32⟩, hf, rfl⟩ := exec_rdu_executed hx hst (by decide) (by decide)
  obtain ⟨hc, hp⟩ := (readBits_answers_ok_iff h0).mp hst
  have hlast := natBits_lastOctet (left := s.br.bitsLeft.toNat) (buf := s.br.buf)
    (fetched := upcoming (fetchCount n.toNat s.br.bitsLeft.toNat) s.env.source) (n := n.toNat)
  rw [upcoming_length hc] at hlast
  rw [readBits_ok (fun _ => hc) hp] at hr ⊢
  have hdata := congrArg (·.data.toNat) (List.singleton_inj.mp (List.append_cancel_left hr))
  refine ⟨hok, hc, rfl, rfl, hf, cursor_after_read .., ?_, ?_⟩
  · rw [BitReader.unconsumed, respond_br, cursor_after_read]
    exact hlast (le_fetched ..) fetched_lt_add_eight
  · exact hdata.symm.trans (Nat.mod_eq_of_lt ((natOfBits_take_lt ..).trans_le (Nat.pow_le_pow_right (by decide) h32)))

/-- A read does not move a finite source past its end (R51). -/
theorem exec_rdu_canGive_zero {n : BitVec 6} {s u : State} (h0 : s.env.source.canGive 0)
    (hx : exec (.rdu n) s = .next u) : u.env.source.canGive 0 := by
  rcases exec_cases hx with ⟨st, d, rfl⟩ | ⟨n, -, ⟨-, h32⟩, -, rfl⟩ | ⟨_, _, hi, -⟩ | ⟨hi, -⟩
  · exact h0
  · have he := readBits_effect h32 s
    refine canGive_zero fun hend => ?_
    rw [he.endless] at hend
    rw [he.octets]
    exact he.sp_end (fun _ => h0.resolve_left (by simp [hend])) hend
  · cases hi
  · cases hi

/-- How many octets reads of widths ns fetch together, if all succeed. -/
def fetches (ns : List (BitVec 6)) (s : State) : Nat :=
  fetchCount (ns.map BitVec.toNat).sum s.br.bitsLeft.toNat

/-- Reads of widths ns that took the machine from s to t were answered rs: where all succeed they cut the unconsumed bits and
those of the fetched octets into pieces. -/
structure ReadsCut (ns : List (BitVec 6)) (s t : State) (rs : List Response) : Prop where
  responses : t.responses = s.responses ++ rs
  length : rs.length = ns.length
  allOk_of_canGive : s.br.fault = .none → s.env.ioFaults = false → s.env.source.canGive (fetches ns s) → allOk rs
  canGive : allOk rs → s.env.source.canGive (fetches ns s)
  data : allOk rs → (rs.map fun r => r.data.toNat) =
    cutBits (ns.map BitVec.toNat) (s.br.unconsumed ++ bitsOf (upcoming (fetches ns s) s.env.source))
  source : allOk rs → t.env.source = sourceAfter (fetches ns s) s.env.source
  bitsLeft : allOk rs →
    t.br.bitsLeft.toNat = 8 * fetches ns s + s.br.bitsLeft.toNat - (ns.map BitVec.toNat).sum

theorem fetches_nil (s : State) : fetches [] s = 0 := fetchCount_eq_zero (Nat.zero_le _)

theorem fetches_cons {n : BitVec 6} {ns : List (BitVec 6)} {s u : State} {r : Response} (h : ReadOk n.toNat s u r) :
    fetches (n :: ns) s = fetchCount n.toNat s.br.bitsLeft.toNat + fetches ns u := by
  rw [fetches, List.map_cons, List.sum_cons, fetchCount_add, fetches, h.bitsLeft]

theorem ReadsCut.nil {s : State} (h0 : s.env.source.canGive 0) : ReadsCut [] s s [] where
  responses := by simp
  length := rfl
  allOk_of_canGive _ _ _ := by simp [allOk]
  canGive _ := by rwa [fetches_nil]
  data _ := rfl
  source _ := by simp [fetches_nil]
  bitsLeft _ := by simp [fetches_nil]

theorem allOk_cons {r : Response} {rs : List Response} : allOk (r :: rs) ↔ r.status = .ok ∧ allOk rs :=
  List.forall_mem_cons

section
variable {n : BitVec 6} {ns : List (BitVec 6)} {s u t : State} {r : Response} {rs : List Response}

/-- A first read that succeeds takes its piece, and leaves the rest of the bits to the reads after it. -/
theorem ReadsCut.cons_ok (ho : ReadOk n.toNat s u r) (hr : u.responses = s.responses ++ [r])
    (h : ReadsCut ns u t rs) : ReadsCut (n :: ns) s t (r :: rs) where
  responses := by rw [h.responses, hr, List.append_assoc, List.singleton_append]
  length := congrArg (· + 1) h.length
  allOk_of_canGive _ hio hc := by
    rw [fetches_cons ho, canGive_add ho.canGive, ← ho.source] at hc
    exact allOk_cons.mpr ⟨ho.status, h.allOk_of_canGive ho.fault (ho.ioFaults.trans hio) hc⟩
  canGive hall := by
    rw [fetches_cons ho, canGive_add ho.canGive, ← ho.source]
    exact h.canGive (allOk_cons.mp hall).2
  data hall := by
    have hlen : n.toNat ≤ (s.br.unconsumed ++
        bitsOf (upcoming (fetchCount n.toNat s.br.bitsLeft.toNat) s.env.source)).length := by
      have := le_fetched n.toNat s.br.bitsLeft.toNat
      rw [List.length_append, unconsumed_length, bitsOf_length, upcoming_length ho.canGive]; omega
    rw [List.map_cons, List.map_cons, cutBits, ho.data, h.data (allOk_cons.mp hall).2, ho.unconsumed, ho.source,
      fetches_cons ho, upcoming_add _ _ _ ho.canGive, bitsOf_append, ← List.append_assoc,
      List.take_append_of_le_length hlen, List.drop_append_of_le_length hlen]
  source hall := by
    rw [h.source (allOk_cons.mp hall).2, ho.source, fetches_cons ho, sourceAfter_add _ _ _ ho.canGive]
  bitsLeft hall := by
    have := le_fetched n.toNat s.br.bitsLeft.toNat
    rw [h.bitsLeft (allOk_cons.mp hall).2, ho.bitsLeft, fetches_cons ho, List.map_cons, List.sum_cons]; omega

/-- After a first read that does not succeed nothing is claimed but that a reader without a fault had too few octets. -/
theorem ReadsCut.cons_failed (hne : r.status ≠ .ok) (hr : u.responses = s.responses ++ [r])
    (hshort : s.br.fault = .none → s.env.ioFaults = false →
      ¬ s.env.source.canGive (fetchCount n.toNat s.br.bitsLeft.toNat))
    (h : ReadsCut ns u t rs) : ReadsCut (n :: ns) s t (r :: rs) where
  responses := by rw [h.responses, hr, List.append_assoc, List.singleton_append]
  length := congrArg (· + 1) h.length
  allOk_of_canGive hf hio hc := by
    rw [fetches, List.map_cons, List.sum_cons, fetchCount_add] at hc
    exact absurd (canGive_mono hc (Nat.le_add_right _ _)) (hshort hf hio)
  canGive hall := absurd (allOk_cons.mp hall).1 hne
  data hall := absurd (allOk_cons.mp hall).1 hne
  source hall := absurd (allOk_cons.mp hall).1 hne
  bitsLeft hall := absurd (allOk_cons.mp hall).1 hne

theorem ReadsCut.cons (h1 : 1 ≤ n.toNat) (h32 : n.toNat ≤ 32) (h0 : s.env.source.canGive 0)
    (hx : exec (.rdu n) s = .next u) (hr : u.responses = s.responses ++ [r]) (h : ReadsCut ns u t rs) :
    ReadsCut (n :: ns) s t (r :: rs) := by
  by_cases hok : r.status = .ok
  · exact .cons_ok (exec_rdu_ok h0 hx hr hok) hr h
  · refine .cons_failed hok hr (fun hf hio hc => hok ?_) h
    obtain rfl := Host.Outcome.next.inj ((exec_rdu_run hf h1 h32).symm.trans hx)
    exact ((answeredWith_iff hr).mp ((readBits_answers_ok_iff h0).mpr ⟨hc, by simp [passes, hio]⟩)).symm

end

theorem core_run_succ {k : Nat} {s u : State} (h : step s = .next u) : core.run (k + 1) s = core.run k u := by
  simp only [Host.Core.run, core, h]

/-- What the host does next does not matter to a read. -/
theorem ReadsCut.of_port {ns : List (BitVec 6)} {s t : State} {rs : List Response} {port : List HostEvent}
    (h : ReadsCut ns { s with port := port } t rs) : ReadsCut ns s t rs :=
  ⟨h.responses, h.length, h.allOk_of_canGive, h.canGive, h.data, h.source, h.bitsLeft⟩

/-- Any legal reads the host presents are all answered, and cut the coming bits where they succeed. -/
theorem run_reads (ns : List (BitVec 6)) (s : State) (hns : ∀ n ∈ ns, 1 ≤ n.toNat ∧ n.toNat ≤ 32)
    (h0 : s.env.source.canGive 0) (hp : s.port = readEvents ns) :
    ∃ t rs, core.run ns.length s = .next t ∧ ReadsCut ns s t rs := by
  induction ns generalizing s with
  | nil => exact ⟨s, [], rfl, .nil h0⟩
  | cons n ns ih =>
    obtain ⟨⟨h1, h32⟩, hns⟩ := List.forall_mem_cons.mp hns
    obtain ⟨u, hu, r, hr⟩ := exec_commandAnswer (.rdu n) { s with port := readEvents ns }
    obtain ⟨hport, -⟩ := commandsStayInTheirUnit _ _ _ hu
    obtain ⟨t, rs, hrun, hcut⟩ := ih u hns (exec_rdu_canGive_zero (by exact h0) hu) hport
    have hall : ReadsCut (n :: ns) { s with port := readEvents ns } t (r :: rs) :=
      .cons h1 h32 h0 hu hr.responses hcut
    have hstep : step s = .next u := (step_of_recognise_some hp (recognise_encode _)).trans hu
    exact ⟨t, r :: rs, (core_run_succ hstep).trans hrun, hall.of_port⟩

/-- Settles O44: at reset no bits are unconsumed, so the reads cut the bits of the fetched octets. -/
theorem readsCutTheSourceBitString : Obligations.ReadsCutTheSourceBitString := by
  intro ns s hbr hsp hns hp total m
  have h0 : s.env.source.canGive 0 := .inr (by omega)
  have hleft : s.br.bitsLeft.toNat = 0 := by rw [hbr]; rfl
  have hun : s.br.unconsumed = [] := by rw [hbr]; rfl
  have hm : fetches ns s = m := by rw [fetches, hleft, fetchCount]; split <;> omega
  obtain ⟨t, rs, hrun, hcut⟩ := run_reads ns s hns h0 hp
  refine ⟨t, rs, hrun, hcut.responses, hcut.length, fun hio => ?_, fun hall => ⟨?_, ?_, ?_⟩⟩
  · have hiff : allOk rs ↔ s.env.source.canGive m :=
      hm ▸ ⟨hcut.canGive, hcut.allOk_of_canGive (by rw [hbr]; rfl) hio⟩
    rw [hiff]
    exact or_congr_right (by omega)
  · rw [hcut.data hall, hun, hm, List.nil_append]
  · rw [hcut.source hall, (sourceAfter_frame _ s.env.source).2.2 (hcut.canGive hall), hsp, hm, Nat.zero_add]
  · rw [hcut.bitsLeft hall, hm, hleft, Nat.add_zero]

end Sys2Proof.Machine
end

section
/-! PROOFS. WRU and FIN (42_bit_writer.md): what a legal write executes, its three cases as words, the emission that fails, and
FIN's check. -/

namespace Sys2Proof.Machine

/-! ### What executes a write (60_exceptions.md R234) -/

/-- A legal write of a writer that is not faulted passes the checks of R234. -/
theorem exec_wru_run {n : BitVec 4} {v : BitVec 8} {s : State} (hf : s.bw.fault = .none) (h1 : 1 ≤ n.toNat)
    (h8 : n.toNat ≤ 8) (hv : v.toNat < 2 ^ n.toNat) :
    exec (.wru n v) s = .next (writeBits n.toNat v.toNat s) := by
  simp only [exec, execWru]
  rw [wruOperandLegal_iff.mpr ⟨h1, h8, hv⟩, checked_run (by simp [unitFaulted, hf])]

/-- A write answered with a status that neither check of R234 gives was executed. -/
theorem exec_wru_executed {n : BitVec 4} {v : BitVec 8} {s t : State} {st : Status}
    (h : exec (.wru n v) s = .next t) (hst : answeredWith st s t) (hill : st ≠ .illegalOperand)
    (hfaulted : st ≠ .unitFaulted) : t = writeBits n.toNat v.toNat s := by
  obtain rfl : checked .bw (wruOperandLegal n v) (writeBits n.toNat v.toNat) s = t := by
    simpa [exec, execWru] using h
  rcases checked_cases .bw (wruOperandLegal n v) (writeBits n.toNat v.toNat) s with ⟨-, hr⟩ | ⟨-, -, hr⟩ | ⟨-, -, hr⟩
  · exact absurd ((answeredWith_iff (hr ▸ respond_responses ..)).mp hst) hill
  · exact absurd ((answeredWith_iff (hr ▸ respond_responses ..)).mp hst) hfaulted
  · exact hr

/-! ### The three octets of a write as words (R160, R161) -/

theorem packBelow_eq_or_shiftLeft (acc v : Octet) (free n : Nat) :
    packBelow acc free n v.toNat = acc ||| (v <<< (free - n)) := by
  rw [packBelow, BitVec.ofNat_or, BitVec.ofNat_toNat, BitVec.setWidth_eq]
  rfl

theorem completedOctet_eq_or_shiftRight (acc v : Octet) (free n : Nat) :
    completedOctet acc free n v.toNat = acc ||| (v >>> (n - free)) := by
  rw [completedOctet, BitVec.ofNat_or, BitVec.ofNat_toNat, BitVec.setWidth_eq, ← BitVec.toNat_ushiftRight,
    BitVec.ofNat_toNat, BitVec.setWidth_eq]

/-- The fresh accumulator of a split write: the shift drops all but the low r bits of the value. -/
theorem leftover_eq_shiftLeft {r : Nat} (hr : r ≤ 8) (v : Octet) : leftover r v.toNat = v <<< (8 - r) := by
  apply BitVec.eq_of_toNat_eq
  have hpow : 2 ^ 8 = 2 ^ r * 2 ^ (8 - r) := by rw [← pow_add]; congr 1; omega
  rw [leftover, mask, Nat.and_two_pow_sub_one_eq_mod, BitVec.toNat_ofNat, BitVec.toNat_shiftLeft, Nat.shiftLeft_eq,
    Nat.shiftLeft_eq, hpow, Nat.mul_mod_mul_right, Nat.mul_mod_mul_right, Nat.mod_mod]

theorem leftover_zero (v : Nat) : leftover 0 v = 0 := by
  simp [leftover, mask]

/-- Settles O28: the two ends of `writeBits` whose emission does not fail, with their octets as words. -/
theorem wruPacksFillsOrSplits : Obligations.WruPacksFillsOrSplits := by
  intro n v s _ hf h1 h8 hv used free draws
  rw [exec_wru_run hf h1 h8 hv]
  refine ⟨fun hlt => ?_, fun heq hp => ?_, fun hlt hp => ?_⟩
  · rw [writeBits_fits hlt, afterPacking, packBelow_eq_or_shiftLeft]
    rfl
  · have hr : n.toNat - free = 0 := by omega
    rw [writeBits_emits heq.ge hp, afterEmission, completedOctet_eq_or_shiftRight, hr, leftover_zero,
      BitVec.ushiftRight_zero]
    rfl
  · rw [writeBits_emits hlt.le hp, afterEmission, completedOctet_eq_or_shiftRight, leftover_eq_shiftLeft (by omega)]
    rfl

/-- Settles O30: of the two ends of `writeBits`, the one that appends an octet is that of eight or more pending bits. -/
theorem wruEmitsAtMostOneOctet : Obligations.WruEmitsAtMostOneOctet := by
  intro n v s _ hf h1 h8 hv hp
  refine ⟨_, exec_wru_run hf h1 h8 hv, writeBits_sink .., ?_⟩
  by_cases hlt : n.toNat < 8 - s.bw.bitsUsed.toNat
  · rw [writeBits_fits hlt]
    exact iff_of_false (fun hne => hne rfl) (by omega)
  · rw [writeBits_emits (by omega) hp]
    exact iff_of_true (by simp) (by omega)

/-- Settles O31: the end of `writeBits` whose emission fails, which is the only one answered `Io`. -/
theorem failedEmissionPacksNothing : Obligations.FailedEmissionPacksNothing := by
  refine ⟨fun n v s hf h1 h8 hv hfull hfail => ?_, fun n v s t h hio => ?_⟩
  · rw [exec_wru_run hf h1 h8 hv, writeBits_fails (by omega) hfail]
    rfl
  · obtain rfl := exec_wru_executed h hio (by decide) (by decide)
    rcases writeBits_cases n.toNat v.toNat s with ⟨-, hr⟩ | ⟨-, hr⟩ | ⟨-, hfaults, -⟩
    · exact absurd ((answeredWith_iff (hr ▸ respond_responses ..)).mp hio) (by decide)
    · exact absurd ((answeredWith_iff (hr ▸ respond_responses ..)).mp hio) (by decide)
    · exact hfaults

/-! ### FIN (R164, R165, R167) -/

/-- FIN of a writer that is not faulted passes the checks of R234. -/
theorem exec_fin_run {s : State} (hf : s.bw.fault = .none) : exec .fin s = .next (finishWrites s) := by
  rw [exec, execFin, checked_run (by simp [unitFaulted, hf])]

theorem finishWrites_aligned {s : State} (h : s.bw.bitsUsed.toNat = 0) : finishWrites s = respond .ok 0 s := if_pos h

theorem finishWrites_unaligned {s : State} (h : s.bw.bitsUsed.toNat ≠ 0) :
    finishWrites s = raise .bw .unalignedEnd s := if_neg h

/-- Settles O32: the fault gate, and the two ends of `finishWrites`. -/
theorem finChecksTheByteBoundary : Obligations.FinChecksTheByteBoundary := by
  refine fun s => ⟨fun hf => ?_, fun hf hz => ?_, fun hf hz => ?_⟩
  · rw [exec, execFin, checked_faulted (unitFaulted_bw.mpr hf)]
    rfl
  · rw [exec_fin_run hf, finishWrites_aligned (by rw [hz]; rfl)]
    rfl
  · rw [exec_fin_run hf, finishWrites_unaligned fun h => hz (BitVec.eq_of_toNat_eq h)]
    rfl

theorem finishWrites_answers_ok_iff {s : State} :
    answeredWith .ok s (finishWrites s) ↔ s.bw.bitsUsed.toNat = 0 := by
  by_cases hz : s.bw.bitsUsed.toNat = 0
  · rw [finishWrites_aligned hz]
    exact iff_of_true ⟨0, rfl⟩ hz
  · rw [finishWrites_unaligned hz, answeredWith_iff (raise_responses ..)]
    exact iff_of_false (by decide) hz

end Sys2Proof.Machine
end

section
/-! PROOFS. The contracts of the writer (42_bit_writer.md R166, R168): writes in sequence build the bit string of the sink and the
residue, reads give written values back, and writes give read values back. -/

namespace Sys2Proof.Machine

/-! ### Bit strings and the numbers they are cut into (00_scope.md R10, R53 to R56) -/

/-- The digits of the number that a bit string spells are the bit string. -/
theorem natBits_natOfBits (bits : List Bool) : natBits bits.length (natOfBits bits) = bits := by
  induction bits with
  | nil => rfl
  | cons b bits ih =>
    have hval : natOfBits (b :: bits) = b.toNat * 2 ^ bits.length + natOfBits bits := by
      simpa [natOfBits] using natOfBits_append [b] bits
    have hlt := natOfBits_lt bits
    have htop : (natOfBits (b :: bits)).testBit bits.length = b := by
      rw [hval, Nat.testBit_eq_decide_div_mod_eq, Nat.mul_comm, Nat.mul_add_div (Nat.two_pow_pos _),
        Nat.div_eq_of_lt hlt]
      cases b <;> rfl
    have hlow : natBits bits.length (natOfBits (b :: bits)) = natBits bits.length (natOfBits bits) := by
      rw [← natBits_mod (Nat.le_refl _), hval, Nat.mul_comm, Nat.mul_add_mod, natBits_mod (Nat.le_refl _)]
    rw [List.length_cons, natBits_succ, htop, hlow, ih]

/-- Octets with the same bit string are the same. -/
theorem bitsOf_injective : Function.Injective bitsOf := by
  intro S T h
  have hlen : S.length = T.length := by
    have := congrArg List.length h
    simp only [bitsOf_length] at this
    omega
  induction S generalizing T with
  | nil => exact (List.length_eq_zero_iff.mp hlen.symm).symm
  | cons b S ih =>
    obtain ⟨c, T, rfl⟩ := List.exists_cons_of_length_eq_add_one hlen.symm
    obtain ⟨hb, hS⟩ := List.append_inj h (by simp)
    have hval := congrArg natOfBits hb
    rw [natOfBits_natBits, natOfBits_natBits, Nat.mod_eq_of_lt b.isLt, Nat.mod_eq_of_lt c.isLt] at hval
    rw [BitVec.eq_of_toNat_eq hval, ih hS (Nat.succ.inj hlen)]

@[simp] theorem joinBits_nil : joinBits [] = [] := rfl

@[simp] theorem joinBits_cons (p : Nat × Nat) (ps : List (Nat × Nat)) :
    joinBits (p :: ps) = natBits p.1 p.2 ++ joinBits ps := rfl

theorem joinBits_append (ps qs : List (Nat × Nat)) : joinBits (ps ++ qs) = joinBits ps ++ joinBits qs :=
  List.flatMap_append

theorem joinBits_length (ps : List (Nat × Nat)) : (joinBits ps).length = (ps.map Prod.fst).sum := by
  induction ps with
  | nil => rfl
  | cons p ps ih => simp [ih]

/-- Cutting the bits of joined numbers by their widths gives the numbers back, whatever follows them. -/
theorem cutBits_joinBits (ps : List (Nat × Nat)) (h : ∀ p ∈ ps, p.2 < 2 ^ p.1) (rest : List Bool) :
    cutBits (ps.map Prod.fst) (joinBits ps ++ rest) = ps.map Prod.snd := by
  induction ps with
  | nil => rfl
  | cons p ps ih =>
    obtain ⟨hp, hps⟩ := List.forall_mem_cons.mp h
    rw [List.map_cons, cutBits, joinBits_cons, List.append_assoc, List.take_left' (natBits_length ..),
      List.drop_left' (natBits_length ..), ih hps, natOfBits_natBits, Nat.mod_eq_of_lt hp, List.map_cons]

/-- Joining the pieces a bit string is cut into gives it back, if the widths use it up. -/
theorem joinBits_cutBits (ns : List Nat) (bits : List Bool) (h : ns.sum = bits.length) :
    joinBits (ns.zip (cutBits ns bits)) = bits := by
  induction ns generalizing bits with
  | nil => exact (List.length_eq_zero_iff.mp h.symm).symm
  | cons n ns ih =>
    rw [List.sum_cons] at h
    have htake : (bits.take n).length = n := by rw [List.length_take]; omega
    have hpiece : natBits n (natOfBits (bits.take n)) = bits.take n := by
      simpa only [htake] using natBits_natOfBits (bits.take n)
    rw [cutBits, List.zip_cons_cons, joinBits_cons, hpiece, ih _ (by rw [List.length_drop]; omega),
      List.take_append_drop]

/-- A piece of width n is below 2 ^ n. -/
theorem lt_two_pow_of_mem_zip_cutBits {ns : List Nat} {bits : List Bool} {p : Nat × Nat}
    (h : p ∈ ns.zip (cutBits ns bits)) : p.2 < 2 ^ p.1 := by
  induction ns generalizing bits with
  | nil => simp at h
  | cons n ns ih =>
    rw [cutBits, List.zip_cons_cons, List.mem_cons] at h
    rcases h with rfl | h
    · exact natOfBits_take_lt ..
    · exact ih h

/-! ### A write that is answered `OK` (R160, R161) -/

/-- The writer between commands, with no fault recorded (10_state.md R26, R33). -/
structure BitWriter.Ready (w : BitWriter) : Prop where
  fault : w.fault = .none
  bitsUsed : w.bitsUsed.toNat ≤ 7
  unfilled : w.acc.toNat % 2 ^ (8 - w.bitsUsed.toNat) = 0

theorem BitWriter.reset_ready : BitWriter.reset.Ready := ⟨rfl, by decide, by decide⟩

/-- The writer side of `s` beside a reset reader and an empty source, for which the invariant speaks of the writer alone. -/
def besideResetReader (s : State) : State := { s with br := BitReader.reset, env.source := Env.initial.source }

theorem besideResetReader_sameWriterSide (s : State) : SameWriterSide s (besideResetReader s) := ⟨rfl, rfl, rfl, rfl⟩

theorem inv_besideResetReader {s : State} (h : s.bw.Ready) : Inv (besideResetReader s) :=
  ⟨Nat.zero_le 7, h.bitsUsed, h.unfilled, fun _ => Nat.le_refl 0⟩

/-- A write does the same to the writer side of every state with that side. -/
theorem writeBits_sameWriterSide (n v : Nat) {s u : State} (h : SameWriterSide s u) :
    SameWriterSide (writeBits n v s) (writeBits n v u) := by
  obtain ⟨e, he⟩ := writeBits_isOneUpdate n v s
  rw [he s (.refl s), he u h]
  exact ⟨rfl, rfl, h.ioFaults, rfl⟩

theorem passes_drop {io : Bool} {ds : List Bool} {a b : Nat} (h : passes io ds (a + b)) :
    passes io (drawsAfter io ds a) b := by
  induction a generalizing ds with
  | zero => rwa [drawsAfter_zero, ← Nat.zero_add b]
  | succ a ih =>
    rw [Nat.add_comm a, ← drawsAfter_add]
    exact ih (passes_tail (by rwa [Nat.add_right_comm] at h))

/-- What a write of n bits that is answered `OK` does to the writer side. -/
structure WriteOk (n v : Nat) (s u : State) : Prop where
  responses : u.responses = s.responses ++ [{ status := .ok, data := 0 }]
  ioFaults : u.env.ioFaults = s.env.ioFaults
  snkDraws : u.env.snkDraws =
    drawsAfter s.env.ioFaults s.env.snkDraws ((s.bw.bitsUsed.toNat + n) / 8)
  bitsUsed : u.bw.bitsUsed.toNat = (s.bw.bitsUsed.toNat + n) % 8
  ready : u.bw.Ready
  appends : bitsOf u.env.sink ++ u.bw.residue = bitsOf s.env.sink ++ s.bw.residue ++ natBits n v

/-- A write none of whose emissions fails is answered `OK`, with the cursor and the draws its pending bits say (R162). -/
theorem writeBits_answered {n v : Nat} {s : State} (h7 : s.bw.bitsUsed.toNat ≤ 7) (h8 : n ≤ 8)
    (hp : passes s.env.ioFaults s.env.snkDraws ((s.bw.bitsUsed.toNat + n) / 8)) :
    (writeBits n v s).responses = s.responses ++ [{ status := .ok, data := 0 }] ∧
    (writeBits n v s).env.snkDraws = drawsAfter s.env.ioFaults s.env.snkDraws ((s.bw.bitsUsed.toNat + n) / 8) ∧
    (writeBits n v s).bw.bitsUsed.toNat = (s.bw.bitsUsed.toNat + n) % 8 ∧
    (writeBits n v s).bw.fault = s.bw.fault := by
  by_cases hlt : n < 8 - s.bw.bitsUsed.toNat
  · have hnone : (s.bw.bitsUsed.toNat + n) / 8 = 0 := by omega
    have hcur : (BitVec.ofNat 4 (s.bw.bitsUsed.toNat + n)).toNat = (s.bw.bitsUsed.toNat + n) % 8 := by
      rw [BitVec.toNat_ofNat]; omega
    rw [writeBits_fits hlt, hnone, drawsAfter_zero]
    exact ⟨rfl, rfl, hcur, rfl⟩
  · have hone : (s.bw.bitsUsed.toNat + n) / 8 = 1 := by omega
    have hcur : (BitVec.ofNat 4 (n - (8 - s.bw.bitsUsed.toNat))).toNat = (s.bw.bitsUsed.toNat + n) % 8 := by
      rw [BitVec.toNat_ofNat]; omega
    rw [hone] at hp ⊢
    rw [writeBits_emits (by omega) hp]
    exact ⟨rfl, rfl, hcur, rfl⟩

theorem writeBits_ok {n v : Nat} {s : State} (hs : s.bw.Ready) (h8 : n ≤ 8) (hv : v < 2 ^ n)
    (hp : passes s.env.ioFaults s.env.snkDraws ((s.bw.bitsUsed.toNat + n) / 8)) :
    WriteOk n v s (writeBits n v s) := by
  have hside := writeBits_sameWriterSide n v (besideResetReader_sameWriterSide s)
  have hinv := inv_besideResetReader hs
  obtain ⟨-, hused, hunfilled, -⟩ := writeBits_inv h8 hv hinv
  obtain ⟨hbeside, -⟩ := writeBits_answered (v := v) (s := besideResetReader s) hs.bitsUsed h8 hp
  have happends := writeBits_appends h8 hv hinv ⟨0, hbeside⟩
  obtain ⟨hresp, hdraws, hcur, hfault⟩ := writeBits_answered (v := v) hs.bitsUsed h8 hp
  obtain ⟨-, -, hio, -⟩ := writeBits_frame n v s
  rw [hside.bw] at hused hunfilled happends
  rw [hside.sink] at happends
  exact ⟨hresp, hio, hdraws, hcur, ⟨hfault.trans hs.fault, hused, hunfilled⟩, happends⟩

/-! ### Writes in sequence (R166) -/

/-- Legal operands of a write (R163). -/
def LegalWrite (w : BitVec 4 × BitVec 8) : Prop := 1 ≤ w.1.toNat ∧ w.1.toNat ≤ 8 ∧ w.2.toNat < 2 ^ w.1.toNat

/-- Width and value of each write, as numbers. -/
def writtenNumbers (writes : List (BitVec 4 × BitVec 8)) : List (Nat × Nat) :=
  writes.map fun w => (w.1.toNat, w.2.toNat)

/-- Writes that took the machine from s to t were answered rs, all `OK`, and appended their bit string to sink and residue. -/
structure WritesAppend (writes : List (BitVec 4 × BitVec 8)) (s t : State) (rs : List Response) : Prop where
  responses : t.responses = s.responses ++ rs
  length : rs.length = writes.length
  allOk : allOk rs
  ioFaults : t.env.ioFaults = s.env.ioFaults
  ready : t.bw.Ready
  appends : bitsOf t.env.sink ++ t.bw.residue =
    bitsOf s.env.sink ++ s.bw.residue ++ joinBits (writtenNumbers writes)

theorem WritesAppend.nil {s : State} (hs : s.bw.Ready) : WritesAppend [] s s [] where
  responses := by simp
  length := rfl
  allOk := by simp [Machine.allOk]
  ioFaults := rfl
  ready := hs
  appends := by simp [writtenNumbers]

theorem WritesAppend.cons {w : BitVec 4 × BitVec 8} {writes : List (BitVec 4 × BitVec 8)} {s u t : State}
    {rs : List Response} (hw : WriteOk w.1.toNat w.2.toNat s u) (h : WritesAppend writes u t rs) :
    WritesAppend (w :: writes) s t ({ status := .ok, data := 0 } :: rs) where
  responses := by rw [h.responses, hw.responses, List.append_assoc, List.singleton_append]
  length := congrArg (· + 1) h.length
  allOk := allOk_cons.mpr ⟨rfl, h.allOk⟩
  ioFaults := h.ioFaults.trans hw.ioFaults
  ready := h.ready
  appends := by
    rw [h.appends, hw.appends, writtenNumbers, writtenNumbers, List.map_cons, joinBits_cons,
      List.append_assoc _ _ (joinBits _)]

/-- What the host does next does not matter to a write. -/
theorem WritesAppend.of_port {writes : List (BitVec 4 × BitVec 8)} {s t : State} {rs : List Response}
    {port : List HostEvent} (h : WritesAppend writes { s with port := port } t rs) : WritesAppend writes s t rs :=
  ⟨h.responses, h.length, h.allOk, h.ioFaults, h.ready, h.appends⟩

/-- Legal writes that the host presents to a writer with no fault are all answered `OK`, where no emission fails. -/
theorem run_writes (writes : List (BitVec 4 × BitVec 8)) (s : State) (hs : s.bw.Ready)
    (hlegal : ∀ w ∈ writes, LegalWrite w) (hp : s.port = writeEvents writes)
    (hpass : passes s.env.ioFaults s.env.snkDraws
      ((s.bw.bitsUsed.toNat + (joinBits (writtenNumbers writes)).length) / 8)) :
    ∃ t rs, core.run writes.length s = .next t ∧ WritesAppend writes s t rs := by
  induction writes generalizing s with
  | nil => exact ⟨s, [], rfl, .nil hs⟩
  | cons w writes ih =>
    obtain ⟨⟨h1, h8, hv⟩, hlegal⟩ := List.forall_mem_cons.mp hlegal
    have hcount : (s.bw.bitsUsed.toNat + (joinBits (writtenNumbers (w :: writes))).length) / 8 =
        (s.bw.bitsUsed.toNat + w.1.toNat) / 8 +
          ((s.bw.bitsUsed.toNat + w.1.toNat) % 8 + (joinBits (writtenNumbers writes)).length) / 8 := by
      rw [writtenNumbers, List.map_cons, joinBits_cons, List.length_append, natBits_length, ← writtenNumbers]
      omega
    rw [hcount] at hpass
    have hw : WriteOk w.1.toNat w.2.toNat { s with port := writeEvents writes } _ :=
      writeBits_ok hs h8 hv (passes_mono hpass (Nat.le_add_right ..))
    obtain ⟨-, hport, -⟩ := writeBits_frame w.1.toNat w.2.toNat { s with port := writeEvents writes }
    have hrest := passes_drop hpass
    rw [← hw.bitsUsed, ← hw.snkDraws, ← hw.ioFaults] at hrest
    obtain ⟨t, rs, hrun, happ⟩ := ih _ hw.ready hlegal hport hrest
    have hstep : step s = .next (writeBits w.1.toNat w.2.toNat { s with port := writeEvents writes }) :=
      (step_of_recognise_some hp (recognise_encode _)).trans (exec_wru_run hs.fault h1 h8 hv)
    exact ⟨t, _, (core_run_succ hstep).trans hrun, (WritesAppend.cons hw happ).of_port⟩

/-- Whole octets and fewer than eight bits after them are told apart in the bit string they make together. -/
theorem octets_and_rest {S : List Octet} {rest W : List Bool} (h : bitsOf S ++ rest = W) (h7 : rest.length ≤ 7) :
    S.length = W.length / 8 ∧ rest.length = W.length % 8 ∧
    bitsOf S = W.take (8 * (W.length / 8)) ∧ rest = W.drop (8 * (W.length / 8)) := by
  have hlen := congrArg List.length h
  rw [List.length_append, bitsOf_length] at hlen
  have hS : (bitsOf S).length = 8 * (W.length / 8) := by rw [bitsOf_length]; omega
  refine ⟨by omega, by omega, ?_, ?_⟩
  · rw [← hS, ← h, List.take_left]
  · rw [← hS, ← h, List.drop_left]

/-- Settles O45: what the writes append to an empty sink and residue, told apart. -/
theorem writesBuildTheSinkBitString : Obligations.WritesBuildTheSinkBitString := by
  intro writes s hbw hsink hlegal hp W hpass
  have hs : s.bw.Ready := hbw ▸ BitWriter.reset_ready
  have hused : s.bw.bitsUsed.toNat = 0 := by rw [hbw]; rfl
  have hres : s.bw.residue = [] := by rw [hbw]; rfl
  obtain ⟨t, rs, hrun, happ⟩ := run_writes writes s hs hlegal hp (by rwa [hused, Nat.zero_add])
  have hbits : bitsOf t.env.sink ++ t.bw.residue = W := by
    rw [happ.appends, hsink, hres]
    rfl
  have hlen : t.bw.residue.length = t.bw.bitsUsed.toNat := residue_length (by have := happ.ready.bitsUsed; omega)
  obtain ⟨hcount, hrest, hoctets, hresidue⟩ := octets_and_rest hbits (hlen.trans_le happ.ready.bitsUsed)
  have hcur : t.bw.bitsUsed.toNat = W.length % 8 := hlen.symm.trans hrest
  refine ⟨t, rs, hrun, happ.responses, happ.length, happ.allOk, hoctets, hcount, hcur, hresidue,
    hcur ▸ happ.ready.unfilled, _, exec_fin_run happ.ready.fault, ?_⟩
  exact finishWrites_answers_ok_iff.trans (by rw [hcur])

/-! ### Reads after writes, writes after reads (R168) -/

theorem passes_of_ioFaults_false {io : Bool} {ds : List Bool} {m : Nat} (h : io = false) : passes io ds m :=
  fun hio => absurd (h.symm.trans hio) (by decide)

/-- A beginning of the bits of octets is found in the first octets already, if they have as many bits. -/
theorem isPrefix_bitsOf_take {A : List Bool} {S : List Octet} {m : Nat} (h : A <+: bitsOf S) (hm : A.length ≤ 8 * m) :
    A <+: bitsOf (S.take m) := by
  have htake : bitsOf (S.take m) <+: bitsOf S := by
    conv_rhs => rw [← List.take_append_drop m S, bitsOf_append]
    exact List.prefix_append ..
  have hlen := h.length_le
  refine List.prefix_of_prefix_length_le h htake ?_
  rw [bitsOf_length] at hlen ⊢
  rw [List.length_take]
  omega

/-- The widths of writes, for reads. -/
abbrev readWidths (writes : List (BitVec 4 × BitVec 8)) : List (BitVec 6) := writes.map fun w => w.1.setWidth 6

theorem readWidths_toNat (writes : List (BitVec 4 × BitVec 8)) :
    (readWidths writes).map BitVec.toNat = (writtenNumbers writes).map Prod.fst := by
  simp only [writtenNumbers, List.map_map]
  exact List.map_congr_left fun w _ => BitVec.toNat_setWidth_of_le (by decide)

theorem readWidths_legal {writes : List (BitVec 4 × BitVec 8)} (h : ∀ w ∈ writes, LegalWrite w) :
    ∀ n ∈ readWidths writes, 1 ≤ n.toNat ∧ n.toNat ≤ 32 := by
  refine List.forall_mem_map.mpr fun w hw => ?_
  obtain ⟨h1, h8, -⟩ := h w hw
  rw [BitVec.toNat_setWidth_of_le (by decide)]
  omega

/-- Reads of the widths of legal writes, of a source whose bits begin with those of the writes, give the written values. -/
theorem run_reads_of_written (writes : List (BitVec 4 × BitVec 8)) (s : State) (hlegal : ∀ w ∈ writes, LegalWrite w)
    (hbr : s.br = BitReader.reset) (hsp : s.env.source.sp = 0) (hend : s.env.source.endless = false)
    (hio : s.env.ioFaults = false) (hp : s.port = readEvents (readWidths writes))
    (hbits : joinBits (writtenNumbers writes) <+: bitsOf s.env.source.octets) :
    ∃ u rs, core.run writes.length s = .next u ∧ u.responses = s.responses ++ rs ∧ allOk rs ∧
      (rs.map fun r => r.data.toNat) = writes.map fun w => w.2.toNat := by
  obtain ⟨u, rs, hrun, hresp, -, hok, hdata⟩ :=
    readsCutTheSourceBitString _ s hbr hsp (readWidths_legal hlegal) hp
  rw [List.length_map] at hrun
  rw [readWidths_toNat, ← joinBits_length] at hok hdata
  have hall : allOk rs := (hok hio).mpr (.inr (by simpa using hbits.length_le))
  obtain ⟨hcut, -⟩ := hdata hall
  obtain ⟨rest, hrest⟩ := isPrefix_bitsOf_take (m := ((joinBits (writtenNumbers writes)).length + 7) / 8) hbits (by omega)
  have hvalues : ∀ p ∈ writtenNumbers writes, p.2 < 2 ^ p.1 := List.forall_mem_map.mpr fun w hw => (hlegal w hw).2.2
  refine ⟨u, rs, hrun, hresp, hall, ?_⟩
  rw [hcut, upcoming_eq_take_drop _ _ hend, hsp, List.drop_zero, ← hrest, cutBits_joinBits _ hvalues, writtenNumbers,
    List.map_map]
  rfl

/-- Settles O46: the sink's bits and those of the first j writes both begin the bit string of all writes. -/
theorem writtenValuesAreReadBack : Obligations.WrittenValuesAreReadBack := by
  intro writes j s t hbw hsink hio hlegal hp hrun hsum
  obtain ⟨t', _, hrun', happ⟩ :=
    run_writes writes s (hbw ▸ BitWriter.reset_ready) hlegal hp (passes_of_ioFaults_false hio)
  obtain rfl := Host.Outcome.next.inj (hrun'.symm.trans hrun)
  have hsinkBits : bitsOf t'.env.sink <+: joinBits (writtenNumbers writes) := by
    refine ⟨t'.bw.residue, ?_⟩
    rw [happ.appends, hsink, hbw]
    rfl
  have hfirst : joinBits (writtenNumbers (writes.take j)) <+: joinBits (writtenNumbers writes) := by
    conv_rhs => rw [← List.take_append_drop j writes, writtenNumbers, List.map_append, joinBits_append]
    exact List.prefix_append ..
  have hcount : (joinBits (writtenNumbers (writes.take j))).length ≤ (bitsOf t'.env.sink).length := by
    rw [bitsOf_length, joinBits_length, writtenNumbers, List.map_map]
    exact hsum
  exact run_reads_of_written (writes.take j) _ (fun w hw => hlegal w (List.mem_of_mem_take hw)) rfl rfl rfl
    (happ.ioFaults.trans hio) rfl (List.prefix_of_prefix_length_le hfirst hsinkBits hcount)

/-- A read does not touch the writer side. -/
theorem run_reads_sameWriterSide (ns : List (BitVec 6)) (s t : State) (hp : s.port = readEvents ns)
    (hrun : core.run ns.length s = .next t) : SameWriterSide s t := by
  induction ns generalizing s with
  | nil =>
    obtain rfl := Host.Outcome.next.inj hrun
    exact .refl s
  | cons n ns ih =>
    obtain ⟨e, he⟩ := exec_rdu_update n { s with port := readEvents ns }
    have hstep : step s = .next (e.apply { s with port := readEvents ns }) :=
      (step_of_recognise_some hp (recognise_encode _)).trans (he _ (.refl _))
    obtain ⟨hbw, hsink, hio, hdraws⟩ := ih _ rfl ((core_run_succ hstep).symm.trans hrun)
    exact ⟨hbw, hsink, hio, hdraws⟩

/-- Reads of widths ns that were answered rs, as the writes of the same widths and values. -/
abbrev readBackWrites (ns : List (BitVec 6)) (rs : List Response) : List (BitVec 4 × BitVec 8) :=
  (ns.zip rs).map fun p => (p.1.setWidth 4, p.2.data.setWidth 8)

/-- Reads of at most 8 bits that cut a bit string into pieces give legal writes of these pieces. -/
theorem readBack_writes (ns : List (BitVec 6)) (rs : List Response) (bits : List Bool)
    (hns : ∀ n ∈ ns, 1 ≤ n.toNat ∧ n.toNat ≤ 8)
    (hcut : (rs.map fun r => r.data.toNat) = cutBits (ns.map BitVec.toNat) bits) :
    (∀ w ∈ readBackWrites ns rs, LegalWrite w) ∧
    writtenNumbers (readBackWrites ns rs) = (ns.map BitVec.toNat).zip (cutBits (ns.map BitVec.toNat) bits) := by
  have hpieces : (ns.zip rs).map (Prod.map BitVec.toNat fun r => r.data.toNat) =
      (ns.map BitVec.toNat).zip (cutBits (ns.map BitVec.toNat) bits) := by
    rw [← hcut, List.zip_map]
  have hpair : ∀ p ∈ ns.zip rs, (p.1.setWidth 4).toNat = p.1.toNat ∧ (p.2.data.setWidth 8).toNat = p.2.data.toNat ∧
      1 ≤ p.1.toNat ∧ p.1.toNat ≤ 8 ∧ p.2.data.toNat < 2 ^ p.1.toNat := by
    intro p hp
    obtain ⟨h1, h8⟩ := hns p.1 (List.of_mem_zip hp).1
    have hlt : p.2.data.toNat < 2 ^ p.1.toNat :=
      lt_two_pow_of_mem_zip_cutBits (hpieces ▸ List.mem_map_of_mem hp)
    have h256 : p.2.data.toNat < 2 ^ 8 := hlt.trans_le (Nat.pow_le_pow_right (by decide) h8)
    rw [BitVec.toNat_setWidth, BitVec.toNat_setWidth, Nat.mod_eq_of_lt h256, Nat.mod_eq_of_lt (by omega)]
    exact ⟨rfl, rfl, h1, h8, hlt⟩
  constructor
  · refine List.forall_mem_map.mpr fun p hp => ?_
    obtain ⟨hn, hv, hlegal⟩ := hpair p hp
    rwa [LegalWrite, hn, hv]
  · rw [← hpieces, writtenNumbers, List.map_map]
    refine List.map_congr_left fun p hp => ?_
    obtain ⟨hn, hv, -⟩ := hpair p hp
    exact Prod.ext hn hv

/-- Settles O47: joining the pieces the reads cut the source into gives its bits, and octets are settled by their bits. -/
theorem readValuesWriteTheSourceBack : Obligations.ReadValuesWriteTheSourceBack := by
  intro ns s t rs hbr hbw hsp hend hsink hio hns hsum hp hrun hresp
  obtain ⟨t', rs', hrun', hresp', hlen, hok, hdata⟩ :=
    readsCutTheSourceBitString ns s hbr hsp (fun n hn => ⟨(hns n hn).1, (hns n hn).2.trans (by decide)⟩) hp
  obtain rfl := Host.Outcome.next.inj (hrun'.symm.trans hrun)
  obtain rfl := List.append_cancel_left (hresp'.symm.trans hresp)
  obtain ⟨hcut, -⟩ := hdata ((hok hio).mpr (.inr hsum.le))
  have hcoming : upcoming (((ns.map BitVec.toNat).sum + 7) / 8) s.env.source = s.env.source.octets := by
    rw [upcoming_eq_take_drop _ _ hend, hsp, List.drop_zero, List.take_of_length_le (by omega)]
  rw [hcoming] at hcut
  obtain ⟨hlegal, hnumbers⟩ := readBack_writes ns rs' _ hns hcut
  have hbits : joinBits (writtenNumbers (readBackWrites ns rs')) = bitsOf s.env.source.octets := by
    rw [hnumbers, joinBits_cutBits _ _ (by rw [hsum, bitsOf_length])]
  have hcount : (readBackWrites ns rs').length = ns.length := by
    rw [readBackWrites, List.length_map, List.length_zip, hlen, Nat.min_self]
  obtain ⟨hbw', hsink', hio', -⟩ := run_reads_sameWriterSide ns s t' hp hrun'
  obtain ⟨u, _, hrunWrites, -, -, -, hoctets, -, -, -, -, v, hfin, hfinOk⟩ :=
    writesBuildTheSinkBitString (readBackWrites ns rs') { t' with port := writeEvents (readBackWrites ns rs') }
      (hbw'.trans hbw) (hsink'.trans hsink) hlegal rfl (passes_of_ioFaults_false (hio'.trans hio))
  rw [← writtenNumbers, hbits, bitsOf_length, Nat.mul_div_cancel_left _ (by decide)] at hoctets
  rw [← writtenNumbers, hbits, bitsOf_length] at hfinOk
  refine ⟨u, v, hcount ▸ hrunWrites, bitsOf_injective ?_, hfin, hfinOk.mpr (Nat.mul_mod_right ..)⟩
  rw [hoctets, List.take_of_length_le (bitsOf_length _).le]

end Sys2Proof.Machine
end

section
/-! PROOFS. The Codec's accesses to its character streams (43_host_codec.md R196, R199): the legal stops, what a command answers
the host, and what an encode and a decode have done when an access fails. -/

namespace Sys2Proof.Machine

/-- Settles O48: the rule of R196, evaluated. -/
theorem legalStopsAreTableH1 : Obligations.LegalStopsAreTableH1 := by
  unfold Obligations.LegalStopsAreTableH1
  decide

/-! ### The first access that fails -/

theorem passes_or_failsAt (io : Bool) (ds : List Bool) (m : Nat) : passes io ds m ∨ ∃ j < m, failsAt io ds j := by
  induction m with
  | zero => exact .inl (passes_zero io ds)
  | succ m ih =>
    rcases ih with hp | ⟨j, hj, hf⟩
    · by_cases hd : io = true ∧ ds[m]? = some true
      · exact .inr ⟨m, Nat.lt_succ_self m, hd.1, hp hd.1, hd.2⟩
      · refine .inl fun hio j hj hdj => ?_
        rcases Nat.lt_succ_iff_lt_or_eq.mp hj with hlt | rfl
        · exact hp hio j hlt hdj
        · exact hd ⟨hio, hdj⟩
    · exact .inr ⟨j, Nat.lt_succ_of_lt hj, hf⟩

theorem not_passes_of_failsAt {io : Bool} {ds : List Bool} {j m : Nat} (hf : failsAt io ds j) (hj : j < m) :
    ¬ passes io ds m := fun hp => hp hf.1 j hj hf.2.2

theorem failsAt_unique {io : Bool} {ds : List Bool} {i j : Nat} (hi : failsAt io ds i) (hj : failsAt io ds j) : i = j := by
  rcases Nat.lt_trichotomy i j with h | h | h
  · exact absurd (failsAt_passes hj) (not_passes_of_failsAt hi h)
  · exact h
  · exact absurd (failsAt_passes hi) (not_passes_of_failsAt hj h)

theorem passes_of_no_draw_fails {io : Bool} {ds : List Bool} (h : ∀ d ∈ ds, d = false) (m : Nat) : passes io ds m :=
  fun _ _ _ hd => Bool.false_ne_true (h _ (List.mem_of_getElem? hd)).symm

theorem headD_drop_eq_true_iff {ds : List Bool} {n : Nat} : (ds.drop n).headD false = true ↔ ds[n]? = some true := by
  rw [List.headD_eq_head?_getD, List.head?_drop]
  cases ds[n]? <;> simp

/-! ### A command the host issues -/

/-- The response of a command reaches the host, and the state is that of the command's execution. -/
theorem issue_of_exec {i : Instr} {s t : State} {r : Response} (h : exec i s = .next t)
    (hr : t.responses = s.responses ++ [r]) : issue i s = (some r, t) := by
  have hstep : step { s with port := .command (encode i) :: s.port } = .next t :=
    (step_of_recognise_some rfl (recognise_encode i)).trans h
  simp [issue, hstep, hr]

theorem issue_sink_prefix (i : Instr) (s : State) : s.env.sink <+: (issue i s).2.env.sink := by
  obtain ⟨t, ht, r, hr⟩ := exec_commandAnswer i s
  obtain ⟨-, -, -, -, hsink, -⟩ := commandsStayInTheirUnit i s t ht
  rwa [issue_of_exec ht hr.responses]

/-! ### One pass of the encode loop (R193, R194) -/

/-- An answer to a read is `OK`, `EndOfStream`, or one on which the encode fails (43_host_codec.md R194). -/
theorem readAnswer_cases (a : Option Response) :
    (∃ v, a = some ⟨.ok, v⟩) ∨ (∃ d, a = some ⟨.endOfStream, d⟩) ∨
      ((∀ v, a ≠ some ⟨.ok, v⟩) ∧ ∀ d, a ≠ some ⟨.endOfStream, d⟩) := by
  rcases a with _ | ⟨st, d⟩
  · simp
  · cases st <;> simp

section
variable {cfg : CodecConfig} {r : CodecRun} {i : Nat} {t u : State} {v w d : U32} {a : Option Response}
  (hr : r.ending = .running)
include hr

section
variable (hk : cfg.k ≤ 8 - cfg.k * i % 8)
include hk

theorem encodeChar_whole_ok (h : issue (.rdu (BitVec.ofNat 6 cfg.k)) r.block = (some ⟨.ok, v⟩, t)) :
    encodeChar cfg r i = r.emitChar cfg v.toNat t := by
  simp only [encodeChar, if_neg (not_not.mpr hr), if_pos hk, h]

theorem encodeChar_whole_end (h : issue (.rdu (BitVec.ofNat 6 cfg.k)) r.block = (some ⟨.endOfStream, d⟩, t)) :
    encodeChar cfg r i =
      if i = 0 then { r with block := t, ending := .clean } else r.fail t .unexpectedEndOfStream := by
  simp only [encodeChar, if_neg (not_not.mpr hr), if_pos hk, h]
  rfl

theorem encodeChar_whole_failed (h : issue (.rdu (BitVec.ofNat 6 cfg.k)) r.block = (a, t))
    (ho : ∀ v, a ≠ some ⟨.ok, v⟩) (he : ∀ d, a ≠ some ⟨.endOfStream, d⟩) :
    encodeChar cfg r i = r.fail t (readFailure a) := by
  simp only [encodeChar, if_neg (not_not.mpr hr), if_pos hk, h]

end

section
variable (hk : ¬ cfg.k ≤ 8 - cfg.k * i % 8)
include hk

theorem encodeChar_split_failed (h : issue (.rdu (BitVec.ofNat 6 (8 - cfg.k * i % 8))) r.block = (a, t))
    (ho : ∀ v, a ≠ some ⟨.ok, v⟩) : encodeChar cfg r i = r.fail t (readFailure a) := by
  simp only [encodeChar, if_neg (not_not.mpr hr), if_neg hk, h]

variable (hhigh : issue (.rdu (BitVec.ofNat 6 (8 - cfg.k * i % 8))) r.block = (some ⟨.ok, v⟩, t))
include hhigh

theorem encodeChar_split_ok
    (hlow : issue (.rdu (BitVec.ofNat 6 (cfg.k - (8 - cfg.k * i % 8)))) t = (some ⟨.ok, w⟩, u)) :
    encodeChar cfg r i = r.emitChar cfg (v.toNat <<< (cfg.k - (8 - cfg.k * i % 8)) ||| w.toNat) u := by
  simp only [encodeChar, if_neg (not_not.mpr hr), if_neg hk, hhigh, hlow]

theorem encodeChar_split_end
    (hlow : issue (.rdu (BitVec.ofNat 6 (cfg.k - (8 - cfg.k * i % 8)))) t = (some ⟨.endOfStream, d⟩, u)) :
    encodeChar cfg r i =
      ((r.emitChar cfg (v.toNat <<< (cfg.k - (8 - cfg.k * i % 8))) u).emitAll (padsAfter cfg i)).finish := by
  simp only [encodeChar, if_neg (not_not.mpr hr), if_neg hk, hhigh, hlow]

theorem encodeChar_split_lowFailed
    (hlow : issue (.rdu (BitVec.ofNat 6 (cfg.k - (8 - cfg.k * i % 8)))) t = (a, u))
    (ho : ∀ v, a ≠ some ⟨.ok, v⟩) (he : ∀ d, a ≠ some ⟨.endOfStream, d⟩) :
    encodeChar cfg r i = r.fail u (readFailure a) := by
  simp only [encodeChar, if_neg (not_not.mpr hr), if_neg hk, hhigh, hlow]

end
end


/-! ### An encode whose character sink fails -/

/-- What one pass of the encode loop does to the operation, once the block has answered (R193, R194). -/
inductive CharStep where
  | ends (t : State) (e : Ending)
  | emits (c : Nat) (t : State)
  | emitsLast (c : Nat) (pads : List Nat) (t : State)

/-- The pass, on the operation before it. -/
def CharStep.apply : CharStep → CodecRun → CodecRun
  | .ends t e, r => { r with block := t, ending := e }
  | .emits c t, r => { r with block := t }.emit c
  | .emitsLast c pads t, r => (({ r with block := t }.emit c).emitAll pads).finish

/-- What a pass does is settled by the block: neither what was emitted nor the coming draws have a part in it. -/
theorem encodeChar_step (cfg : CodecConfig) (i : Nat) (b : State) :
    ∃ p : CharStep, ∀ r : CodecRun, r.block = b → r.ending = .running → encodeChar cfg r i = p.apply r := by
  by_cases hk : cfg.k ≤ 8 - cfg.k * i % 8
  · rcases h : issue (.rdu (BitVec.ofNat 6 cfg.k)) b with ⟨a, t⟩
    rcases readAnswer_cases a with ⟨v, rfl⟩ | ⟨d, rfl⟩ | ⟨ho, he⟩
    · exact ⟨.emits _ t, fun r hb hr => encodeChar_whole_ok hr hk (hb ▸ h)⟩
    · by_cases hi : i = 0
      · exact ⟨.ends t .clean, fun r hb hr => (encodeChar_whole_end hr hk (hb ▸ h)).trans (if_pos hi)⟩
      · exact ⟨.ends t (.failed _), fun r hb hr => (encodeChar_whole_end hr hk (hb ▸ h)).trans (if_neg hi)⟩
    · exact ⟨.ends t (.failed _), fun r hb hr => encodeChar_whole_failed hr hk (hb ▸ h) ho he⟩
  · rcases hhigh : issue (.rdu (BitVec.ofNat 6 (8 - cfg.k * i % 8))) b with ⟨a, t⟩
    by_cases ho : ∀ v, a ≠ some ⟨.ok, v⟩
    · exact ⟨.ends t (.failed _), fun r hb hr => encodeChar_split_failed hr hk (hb ▸ hhigh) ho⟩
    · push Not at ho
      obtain ⟨v, rfl⟩ := ho
      rcases hlow : issue (.rdu (BitVec.ofNat 6 (cfg.k - (8 - cfg.k * i % 8)))) t with ⟨a, u⟩
      rcases readAnswer_cases a with ⟨w, rfl⟩ | ⟨d, rfl⟩ | ⟨ho, he⟩
      · exact ⟨.emits _ u, fun r hb hr => encodeChar_split_ok hr hk (hb ▸ hhigh) hlow⟩
      · exact ⟨.emitsLast _ _ u, fun r hb hr => encodeChar_split_end hr hk (hb ▸ hhigh) hlow⟩
      · exact ⟨.ends u (.failed _), fun r hb hr => encodeChar_split_lowFailed hr hk (hb ▸ hhigh) hlow ho he⟩

theorem encodeChar_of_ended {cfg : CodecConfig} {r : CodecRun} (h : r.ending ≠ .running) (i : Nat) :
    encodeChar cfg r i = r := if_pos h

theorem CodecRun.finish_of_ended {r : CodecRun} (h : r.ending ≠ .running) : r.finish = r := if_neg h

theorem CodecRun.finish_of_running {r : CodecRun} (h : r.ending = .running) : r.finish = { r with ending := .clean } :=
  if_pos h

/-- With no draws every character is written. -/
theorem CodecRun.emit_of_no_draws {r : CodecRun} (h : r.charDraws = []) (c : Nat) :
    r.emit c = { r with out := r.out ++ [c] } := by
  rw [CodecRun.emit_eq, h, if_neg (by simp), List.tail_nil, ← h]

theorem CodecRun.emitAll_of_running {r : CodecRun} (hd : r.charDraws = []) (hr : r.ending = .running) (cs : List Nat) :
    r.emitAll cs = { r with out := r.out ++ cs } := by
  induction cs generalizing r with
  | nil => simp
  | cons c cs ih =>
    rw [CodecRun.emitAll, if_pos hr, CodecRun.emit_of_no_draws hd, ih (by exact hd) (by exact hr), List.append_assoc,
      List.singleton_append]

theorem CodecRun.emitAll_of_ended {r : CodecRun} (h : r.ending ≠ .running) (cs : List Nat) : r.emitAll cs = r := by
  cases cs with
  | nil => rfl
  | cons c cs => exact if_neg h

/-- The operation `r` with draws `ds` and the operation `u` with none stand alike, no access having failed. -/
structure Alike (ds : List Bool) (r u : CodecRun) : Prop where
  eq : r = { u with charDraws := ds.drop u.out.length }
  undrawn : u.charDraws = []
  passes : passes true ds u.out.length

/-- An access of the operation `r` with draws `ds` has failed, and the operation `u` with none has emitted more. -/
structure Stopped (ds : List Bool) (r u : CodecRun) : Prop where
  ending : r.ending = .failed .io
  undrawn : u.charDraws = []
  failsAt : failsAt true ds r.out.length
  out : r.out <+: u.out
  lt : r.out.length < u.out.length

theorem CharStep.apply_undrawn (p : CharStep) {u : CodecRun} (hd : u.charDraws = []) (hr : u.ending = .running) :
    (p.apply u).charDraws = [] ∧ u.out <+: (p.apply u).out := by
  cases p with
  | ends t e => exact ⟨hd, List.prefix_rfl⟩
  | emits c t =>
    rw [CharStep.apply, CodecRun.emit_of_no_draws (by exact hd)]
    exact ⟨hd, List.prefix_append ..⟩
  | emitsLast c pads t =>
    rw [CharStep.apply, CodecRun.emit_of_no_draws (by exact hd), CodecRun.emitAll_of_running (by exact hd) (by exact hr),
      CodecRun.finish_out, CodecRun.finish_charDraws]
    exact ⟨hd, (List.prefix_append ..).trans (List.prefix_append ..)⟩

theorem encodeChar_undrawn (cfg : CodecConfig) (i : Nat) {u : CodecRun} (hd : u.charDraws = []) :
    (encodeChar cfg u i).charDraws = [] ∧ u.out <+: (encodeChar cfg u i).out := by
  by_cases hr : u.ending = .running
  · obtain ⟨p, hp⟩ := encodeChar_step cfg i u.block
    rw [hp u rfl hr]
    exact p.apply_undrawn hd hr
  · rw [encodeChar_of_ended hr]
    exact ⟨hd, List.prefix_rfl⟩

/-- The operation `r` with draws `ds` follows the operation `u` with none, up to the first access that fails. -/
def Follows (ds : List Bool) (r u : CodecRun) : Prop := Alike ds r u ∨ Stopped ds r u

section
variable {ds : List Bool} {r u : CodecRun}

theorem Stopped.not_running (h : Stopped ds r u) : r.ending ≠ .running := by rw [h.ending]; decide

theorem Stopped.mono {u' : CodecRun} (h : Stopped ds r u) (hd : u'.charDraws = []) (hout : u.out <+: u'.out) :
    Stopped ds r u' :=
  ⟨h.ending, hd, h.failsAt, h.out.trans hout, h.lt.trans_le hout.length_le⟩

theorem Alike.ending (h : Alike ds r u) : r.ending = u.ending := by rw [h.eq]

theorem Alike.emit (h : Alike ds r u) (c : Nat) : Follows ds (r.emit c) (u.emit c) := by
  obtain ⟨rfl, hd, hp⟩ := h
  rw [CodecRun.emit_of_no_draws hd, CodecRun.emit_eq]
  simp only [headD_drop_eq_true_iff]
  split
  · rename_i hfail
    exact .inr ⟨rfl, hd, ⟨rfl, hp rfl, hfail⟩, List.prefix_append .., by simp⟩
  · rename_i hpass
    refine .inl ⟨by simp, hd, fun _ j hj => ?_⟩
    rw [List.length_append, List.length_singleton] at hj
    rcases Nat.lt_succ_iff_lt_or_eq.mp hj with hlt | rfl
    · exact hp rfl j hlt
    · exact hpass

theorem Follows.emitAll (h : Follows ds r u) (hr : u.ending = .running) (cs : List Nat) :
    Follows ds (r.emitAll cs) (u.emitAll cs) := by
  induction cs generalizing r u with
  | nil => exact h
  | cons c cs ih =>
    rcases h with ha | hs
    · rw [CodecRun.emitAll, CodecRun.emitAll, if_pos (ha.ending.trans hr), if_pos hr]
      exact ih (ha.emit c) (by rwa [CodecRun.emit_of_no_draws ha.undrawn])
    · rw [CodecRun.emitAll_of_ended hs.not_running, CodecRun.emitAll_of_running hs.undrawn hr]
      exact .inr (hs.mono hs.undrawn (List.prefix_append ..))

theorem Follows.finish (h : Follows ds r u) (hr : u.ending = .running) : Follows ds r.finish u.finish := by
  rcases h with ⟨rfl, hd, hp⟩ | hs
  · rw [CodecRun.finish_of_running (r := u) hr, CodecRun.finish_of_running (by exact hr)]
    exact .inl ⟨rfl, hd, hp⟩
  · rw [CodecRun.finish_of_ended hs.not_running]
    exact .inr (hs.mono (by rw [CodecRun.finish_charDraws, hs.undrawn]) (by rw [CodecRun.finish_out]))

theorem Alike.apply (h : Alike ds r u) (hr : u.ending = .running) (p : CharStep) :
    Follows ds (p.apply r) (p.apply u) := by
  have hblock (t : State) : Alike ds { r with block := t } { u with block := t } := by
    obtain ⟨rfl, hd, hp⟩ := h
    exact ⟨rfl, hd, hp⟩
  cases p with
  | ends t e =>
    obtain ⟨rfl, hd, hp⟩ := h
    exact .inl ⟨rfl, hd, hp⟩
  | emits c t => exact (hblock t).emit c
  | emitsLast c pads t =>
    have hd : ({ u with block := t } : CodecRun).charDraws = [] := h.undrawn
    rw [CharStep.apply, CharStep.apply]
    refine (((hblock t).emit c).emitAll ?_ pads).finish ?_
    · rwa [CodecRun.emit_of_no_draws hd]
    · rw [CodecRun.emit_of_no_draws hd, CodecRun.emitAll_of_running (by exact hd) (by exact hr)]
      exact hr

theorem Follows.encodeChar (h : Follows ds r u) (cfg : CodecConfig) (i : Nat) :
    Follows ds (encodeChar cfg r i) (encodeChar cfg u i) := by
  rcases h with ha | hs
  · by_cases hr : u.ending = .running
    · obtain ⟨p, hp⟩ := encodeChar_step cfg i u.block
      rw [hp u rfl hr, hp r (by rw [ha.eq]) (ha.ending.trans hr)]
      exact ha.apply hr p
    · rw [encodeChar_of_ended hr, encodeChar_of_ended (ha.ending ▸ hr)]
      exact .inl ha
  · obtain ⟨hd, hout⟩ := encodeChar_undrawn cfg i hs.undrawn
    rw [encodeChar_of_ended hs.not_running]
    exact .inr (hs.mono hd hout)

theorem Follows.foldl_encodeChar (h : Follows ds r u) (cfg : CodecConfig) (is : List Nat) :
    Follows ds (is.foldl (Machine.encodeChar cfg) r) (is.foldl (Machine.encodeChar cfg) u) := by
  induction is generalizing r u with
  | nil => exact h
  | cons i is ih => exact ih (h.encodeChar cfg i)

theorem Follows.encodeWords (h : Follows ds r u) (cfg : CodecConfig) (words : Nat) :
    Follows ds (encodeWords cfg words r) (encodeWords cfg words u) := by
  induction words generalizing r u with
  | zero => exact h
  | succ words ih => exact ih (h.foldl_encodeChar cfg _)

end

/-- An encode before its first command. -/
abbrev encodeStart (octets : List Octet) (ds : List Bool) (s : State) : CodecRun :=
  { out := [], charDraws := ds, block := applyReset (bindSource octets false s), ending := .running }

theorem encodeOctets_follows (cfg : CodecConfig) (octets : List Octet) (ds : List Bool) (s : State) :
    Follows ds (encodeOctets cfg octets ds s) (encodeOctets cfg octets [] s) := by
  have hstart : Alike ds (encodeStart octets ds s) (encodeStart octets [] s) := ⟨rfl, rfl, passes_zero _ _⟩
  exact Follows.encodeWords (.inl hstart) cfg _

/-! ### A decode whose character source fails -/

/-- The operation with other draws. -/
abbrev CodecRun.withDraws (r : CodecRun) (ds : List Bool) : CodecRun := { r with charDraws := ds }

/-- `f`, which takes the characters `cs` from the operation `r` on, makes m readings and ends in `u` if none of them
fails; if the first to fail is the j-th, it has failed with `Io` and emitted what the first j characters give. -/
structure Reads (f : List Nat → CodecRun → CodecRun) (cs : List Nat) (r : CodecRun) (m : Nat) (u : CodecRun) : Prop where
  count : m ≤ cs.length + 1
  grows : r.block.env.sink <+: u.block.env.sink
  pass : ∀ ds, passes true ds m → f cs (r.withDraws ds) = u.withDraws (ds.drop m)
  fail : ∀ ds j, j < m → failsAt true ds j →
    (f cs (r.withDraws ds)).ending = .failed .io ∧
    (f cs (r.withDraws ds)).block.env.sink = (f (cs.take j) (r.withDraws [])).block.env.sink ∧
    (f cs (r.withDraws ds)).block.env.sink <+: u.block.env.sink

section
variable {f g : List Nat → CodecRun → CodecRun} {cs : List Nat} {r u : CodecRun} {m : Nat}

/-- An operation that ends without a reading. -/
theorem Reads.none (h : ∀ ds, f cs (r.withDraws ds) = u.withDraws ds) (hs : r.block.env.sink <+: u.block.env.sink) :
    Reads f cs r 0 u :=
  ⟨Nat.zero_le _, hs, fun ds _ => h ds, fun _ _ hj => absurd hj (Nat.not_lt_zero _)⟩

theorem Reads.of_eq {r' : CodecRun} (h : Reads g cs r' m u)
    (heq : ∀ cs ds, f cs (r.withDraws ds) = g cs (r'.withDraws ds)) (hs : r.block.env.sink <+: r'.block.env.sink) :
    Reads f cs r m u := by
  refine ⟨h.count, hs.trans h.grows, fun ds hp => (heq cs ds).trans (h.pass ds hp), fun ds j hj hf => ?_⟩
  rw [heq, heq]
  exact h.fail ds j hj hf

/-- The reading that meets the end of the characters. -/
theorem Reads.atEnd {go : CodecRun → CodecRun} (hf : ∀ r, f [] r = r.charAccess go)
    (hgo : ∀ ds, go (r.withDraws ds) = u.withDraws ds) (hs : u.block.env.sink = r.block.env.sink) :
    Reads f [] r 1 u := by
  refine ⟨Nat.le_refl _, hs ▸ List.prefix_rfl, fun ds hp => ?_, fun ds j hj hfail => ?_⟩
  · rw [hf, CodecRun.charAccess_pass _ _ (by exact passes_head hp (by decide)), ← List.drop_one]
    exact hgo _
  · obtain rfl : j = 0 := by omega
    have hnone : (f [] (r.withDraws [])).block.env.sink = r.block.env.sink := by
      rw [hf, CodecRun.charAccess_pass _ _ rfl]
      exact (congrArg (·.block.env.sink) (hgo [])).trans hs
    rw [List.take_nil, hnone, hf, CodecRun.charAccess_fail _ _ (by exact failsAt_zero hfail), hs]
    exact ⟨rfl, rfl, List.prefix_rfl⟩

/-- The reading of a character, and those after it. -/
theorem Reads.read {c : Nat} (hcons : ∀ cs r, f (c :: cs) r = r.charAccess (g cs))
    (hnil : (f [] (r.withDraws [])).block.env.sink = r.block.env.sink) (h : Reads g cs r m u) :
    Reads f (c :: cs) r (m + 1) u := by
  have hgo (cs : List Nat) {ds : List Bool} (hd : ds.headD false = false) :
      f (c :: cs) (r.withDraws ds) = g cs (r.withDraws ds.tail) := by
    rw [hcons, CodecRun.charAccess_pass _ _ hd]
  refine ⟨Nat.succ_le_succ h.count, h.grows, fun ds hp => ?_, fun ds j hj hfail => ?_⟩
  · rw [hgo cs (passes_head hp (Nat.succ_pos m)), ← List.drop_one, h.pass (ds.drop 1) (passes_tail hp),
      List.drop_drop, Nat.add_comm]
  · cases j with
    | zero =>
      rw [List.take_zero, hnil, hcons, CodecRun.charAccess_fail _ _ (by exact failsAt_zero hfail)]
      exact ⟨rfl, rfl, h.grows⟩
    | succ j =>
      rw [hgo cs (passes_head (failsAt_passes hfail) (Nat.succ_pos j)), List.take_succ_cons, hgo _ rfl, ← List.drop_one]
      exact h.fail _ j (Nat.lt_of_succ_lt_succ hj) (failsAt_tail hfail)

end

theorem padRun_reads (count : Nat) (cs : List Nat) (r : CodecRun) : ∃ m u, Reads (padRun count) cs r m u := by
  induction count generalizing cs r with
  | zero =>
    refine ⟨0, _, .none (u := r.finish) (fun ds => ?_) ?_⟩
    · rw [padRun, CodecRun.finish, CodecRun.finish]
      split <;> rfl
    · rw [CodecRun.finish_block]
  | succ count ih =>
    cases cs with
    | nil => exact ⟨1, r.fail r.block .unexpectedEndOfStream, .atEnd (fun _ => rfl) (fun _ => rfl) rfl⟩
    | cons c cs =>
      by_cases hc : c = padChar
      · obtain ⟨m, u, h⟩ := ih cs r
        exact ⟨m + 1, u, .read (fun _ _ => by simp [padRun, hc]) rfl h⟩
      · exact ⟨1, r.fail r.block .badPadding,
          .read (g := fun _ r => r.fail r.block .badPadding) (fun _ _ => by simp [padRun, hc]) rfl
            (.none (fun _ => rfl) List.prefix_rfl)⟩

theorem decodePad_reads (cfg : CodecConfig) (i : Nat) (cs : List Nat) (r : CodecRun) :
    ∃ m u, Reads (fun cs => decodePad cfg cs i) cs r m u := by
  by_cases h : cfg.pads = false ∨ i = 0 ∨ legalStop cfg.k i = false
  · refine ⟨0, r.fail r.block .badPadding, .none (fun ds => ?_) List.prefix_rfl⟩
    rcases h with h | h | h <;> simp [decodePad, h, CodecRun.fail]
  · push Not at h
    obtain ⟨hp, hi, hl⟩ := h
    obtain ⟨m, u, hr⟩ := padRun_reads (cfg.C - i - 1) cs r
    exact ⟨m, u, hr.of_eq (fun cs ds => by simp [decodePad, hp, hi, hl]) List.prefix_rfl⟩

/-- A character that is looked up and written either ends the decode or lets it go on, as the block answers. -/
theorem decodeValue_cases (cfg : CodecConfig) (c : Nat) (b : State) :
    ∃ t : State, b.env.sink <+: t.env.sink ∧
      ((∃ e, ∀ go (r : CodecRun), r.block = b → decodeValue cfg c go r = r.fail t e) ∨
        ∀ go (r : CodecRun), r.block = b → decodeValue cfg c go r = go { r with block := t }) := by
  cases hl : lookupChar cfg c with
  | none => exact ⟨b, List.prefix_rfl, .inl ⟨.badCharacter c, fun go r hb => by simp only [decodeValue, hl, hb]⟩⟩
  | some v =>
    have hsink := issue_sink_prefix (.wru (BitVec.ofNat 4 cfg.k) (BitVec.ofNat 8 v)) b
    rcases h : issue (.wru (BitVec.ofNat 4 cfg.k) (BitVec.ofNat 8 v)) b with ⟨_ | ⟨st, d⟩, t⟩ <;> rw [h] at hsink
    · refine ⟨t, hsink, .inl ⟨.unexpectedStatus .illegalCommand, fun go r hb => ?_⟩⟩
      simp only [decodeValue, hl, hb, h]
    · refine ⟨t, hsink, ?_⟩
      cases st with
      | ok => exact .inr fun go r hb => by simp only [decodeValue, hl, hb, h]
      | io => exact .inl ⟨.io, fun go r hb => by simp only [decodeValue, hl, hb, h]⟩
      | _ => exact .inl ⟨.unexpectedStatus _, fun go r hb => by simp only [decodeValue, hl, hb, h]; rfl⟩

/-- What a decode does with a character it has read as character i of a word. -/
def decodeCharacter (cfg : CodecConfig) (c i : Nat) (cs : List Nat) (r : CodecRun) : CodecRun :=
  if c = padChar then decodePad cfg cs i r
  else decodeValue cfg c (decodeFrom cfg cs (if i + 1 = cfg.C then 0 else i + 1)) r

theorem decodeFrom_cons (cfg : CodecConfig) (c i : Nat) (cs : List Nat) (r : CodecRun) :
    decodeFrom cfg (c :: cs) i r = r.charAccess (decodeCharacter cfg c i cs) := rfl

theorem decodeEnd_withDraws (cfg : CodecConfig) (i : Nat) (r : CodecRun) (ds : List Bool) :
    decodeEnd cfg i (r.withDraws ds) = (decodeEnd cfg i r).withDraws ds := by
  simp only [decodeEnd, CodecRun.finish, CodecRun.fail]
  split_ifs <;> rfl

theorem decodeEnd_block (cfg : CodecConfig) (i : Nat) (r : CodecRun) : (decodeEnd cfg i r).block = r.block := by
  unfold decodeEnd
  split_ifs <;> simp

theorem decodeFrom_reads (cfg : CodecConfig) (cs : List Nat) (i : Nat) (r : CodecRun) :
    ∃ m u, Reads (fun cs => decodeFrom cfg cs i) cs r m u := by
  induction cs generalizing i r with
  | nil =>
    exact ⟨1, _, .atEnd (fun _ => rfl) (decodeEnd_withDraws cfg i r) (by rw [decodeEnd_block])⟩
  | cons c cs ih =>
    have hnil : (decodeFrom cfg [] i (r.withDraws [])).block.env.sink = r.block.env.sink := by
      rw [decodeFrom, CodecRun.charAccess_pass _ _ rfl, decodeEnd_block]
    suffices h : ∃ m u, Reads (decodeCharacter cfg c i) cs r m u by
      obtain ⟨m, u, h⟩ := h
      exact ⟨m + 1, u, h.read (decodeFrom_cons cfg c i) hnil⟩
    by_cases hc : c = padChar
    · obtain ⟨m, u, h⟩ := decodePad_reads cfg i cs r
      exact ⟨m, u, h.of_eq (fun _ _ => if_pos hc) List.prefix_rfl⟩
    · obtain ⟨t, ht, ⟨e, he⟩ | hgo⟩ := decodeValue_cases cfg c r.block
      · exact ⟨0, r.fail t e, .none (fun ds => (if_neg hc).trans (he _ _ rfl)) ht⟩
      · obtain ⟨m, u, h⟩ := ih (if i + 1 = cfg.C then 0 else i + 1) { r with block := t }
        exact ⟨m, u, h.of_eq (fun _ _ => (if_neg hc).trans (hgo _ _ rfl)) ht⟩

/-- A decode, from its first reading on. -/
abbrev decodeStart (s : State) : CodecRun :=
  { out := [], charDraws := [], block := applyReset (bindSink s), ending := .running }

theorem readings_eq {cfg : CodecConfig} {chars : List Nat} {s : State} {m : Nat} {u : CodecRun}
    (h : Reads (fun cs => decodeFrom cfg cs 0) chars (decodeStart s) m u) : readings cfg chars s = m := by
  have hcount := h.count
  have hpass := h.pass (List.replicate (chars.length + 1) false)
    (passes_of_no_draw_fails (fun d hd => List.eq_of_mem_replicate hd) m)
  rw [readings, show decodeChars cfg chars (List.replicate (chars.length + 1) false) s = _ from hpass, List.length_drop,
    List.length_replicate]
  omega

/-- Settles O50: an operation with draws does what the one with none does, up to the first access that fails. -/
theorem failedCharacterAccessesKeepTheOutput : Obligations.FailedCharacterAccessesKeepTheOutput := by
  refine ⟨fun cfg octets draws s => ?_, fun cfg chars draws s => ?_, fun cfg chars draws s => ?_⟩
  · intro run unfailing
    rcases encodeOctets_follows cfg octets draws s with ha | hs
    · have hsame : run.out = unfailing.out ∧ run.ending = unfailing.ending := ⟨congrArg (·.out) ha.eq, ha.ending⟩
      exact ⟨hsame.1 ▸ List.prefix_rfl, .inr hsame,
        fun j hj hf => absurd ha.passes (not_passes_of_failsAt hf hj), fun _ => hsame⟩
    · refine ⟨hs.out, .inl hs.ending, fun j _ hf => ⟨hs.ending, ?_⟩,
        fun hp => absurd hp (not_passes_of_failsAt hs.failsAt hs.lt)⟩
      rw [failsAt_unique hf hs.failsAt]
      exact List.prefix_iff_eq_take.mp hs.out
  · obtain ⟨m, u, h⟩ := decodeFrom_reads cfg chars 0 (decodeStart s)
    rw [readings_eq h]
    have hundrawn : decodeChars cfg chars [] s = u.withDraws [] :=
      (h.pass [] (passes_of_no_draw_fails (by simp) m)).trans (by rw [List.drop_nil])
    intro run unfailing
    simp only [show unfailing = u.withDraws [] from hundrawn]
    rcases passes_or_failsAt true draws m with hp | ⟨j, hj, hf⟩
    · have hrun : run = u.withDraws (draws.drop m) := h.pass draws hp
      rw [hrun]
      exact ⟨List.prefix_rfl, .inr ⟨rfl, rfl⟩, fun j hj hf => absurd hp (not_passes_of_failsAt hf hj),
        fun _ => ⟨rfl, rfl⟩⟩
    · obtain ⟨he, hsink, hpre⟩ := h.fail draws j hj hf
      refine ⟨hpre, .inl he, fun i _ hi => ?_, fun hp => absurd hp (not_passes_of_failsAt hf hj)⟩
      obtain rfl := failsAt_unique hi hf
      exact ⟨he, hsink⟩
  · cases chars <;> exact ⟨rfl, rfl⟩

end Sys2Proof.Machine
end

section
/-! PROOFS. The Codec's round trip (43_host_codec.md R192 to R197, R202): the configuration the host accepts, the encode loop as
cutting the octets' bits into characters, and the decode loop as writing them back. -/

namespace Sys2Proof.Machine

/-! ### The configuration (R192) -/

/-- The configuration of an alphabet the host accepts, of 2 ^ k characters: each is found again by its value. -/
structure CodecConfig.Accepted (cfg : CodecConfig) : Prop where
  k_pos : 0 < cfg.k
  k_le : cfg.k ≤ 7
  C : cfg.C = (wordGeometry cfg.k).C
  lookup : ∀ v < 2 ^ cfg.k, lookupChar cfg (cfg.alphabet.getD v 0) = some v
  ne_pad : ∀ v < 2 ^ cfg.k, cfg.alphabet.getD v 0 ≠ padChar

theorem alphabetOk_iff {alphabet : List Nat} :
    alphabetOk alphabet = true ↔ (∀ c ∈ alphabet, 0x21 ≤ c ∧ c ≤ 0x7E ∧ c ≠ padChar) ∧ alphabet.Nodup := by
  simp [alphabetOk, and_assoc]

theorem getElem?_reverseTable {alphabet : List Nat} {j : Nat} (hj : j < 0x80 - 0x21) :
    (reverseTable alphabet)[j]? = some (alphabet.idxOf? (0x21 + j)) := by
  simp [reverseTable, List.getElem?_range hj]

theorem idxOf?_getElem {l : List Nat} (hl : l.Nodup) {i : Nat} (hi : i < l.length) : l.idxOf? l[i] = some i := by
  refine List.idxOf?_eq_some_iff.mpr ⟨hi, rfl, fun j hj h => ?_⟩
  exact absurd ((List.Nodup.getElem_inj_iff hl).mp h) (Nat.ne_of_lt hj)

/-- A character of the alphabet is looked up as its place in it. -/
theorem lookupChar_getD {cfg : CodecConfig} (hrev : cfg.reverse = reverseTable cfg.alphabet)
    (hok : alphabetOk cfg.alphabet = true) {v : Nat} (hv : v < cfg.alphabet.length) :
    lookupChar cfg (cfg.alphabet.getD v 0) = some v := by
  obtain ⟨hchars, hnodup⟩ := alphabetOk_iff.mp hok
  obtain ⟨hlow, hhigh, -⟩ := hchars _ (List.getElem_mem hv)
  rw [List.getD_eq_getElem _ _ hv, lookupChar, if_neg (by omega), hrev, getElem?_reverseTable (by omega),
    Nat.add_sub_cancel' hlow, idxOf?_getElem hnodup hv]
  rfl

/-- What the host reads of a packed geometry (40_geometry.md R114). -/
theorem packGeometry_fields {g : Geometry} (hk : g.k < 16) (hB : g.B < 16) (hC : g.C < 16) :
    (packGeometry g).toNat % 16 = g.k ∧ (packGeometry g).toNat / 256 % 16 = g.C := by
  rw [packGeometry_eq hk hB hC, BitVec.toNat_ofNat]
  omega

/-- The characters that pass the host's checks and a geometry of their number make an accepted configuration. -/
theorem accepted_of_fields {cfg : CodecConfig} {k : Nat} (h1 : 0 < k) (h7 : k ≤ 7) (hlen : cfg.alphabet.length = 2 ^ k)
    (hok : alphabetOk cfg.alphabet = true) (hrev : cfg.reverse = reverseTable cfg.alphabet)
    (hk : cfg.k = k) (hC : cfg.C = (wordGeometry k).C) : cfg.Accepted := by
  subst hk
  refine ⟨h1, h7, hC, fun v hv => lookupChar_getD hrev hok (hlen ▸ hv), fun v hv => ?_⟩
  rw [List.getD_eq_getElem _ _ (hlen ▸ hv)]
  exact ((alphabetOk_iff.mp hok).1 _ (List.getElem_mem _)).2.2

theorem construct_accepted {alphabet : List Nat} {pads : Bool} {s : State} {cfg : CodecConfig}
    (h : construct alphabet pads s = .ok cfg) : cfg.Accepted := by
  have hissue : (issue (.geo (BitVec.ofNat 8 alphabet.length)) s).1 =
      some (geoResponse (BitVec.ofNat 8 alphabet.length).toNat) := by
    rw [issue_of_exec (exec_geo_eq _ s) (respond_responses ..)]
  rw [construct, hissue] at h
  split at h
  · cases h
  · rename_i hshort
    rw [BitVec.toNat_ofNat, Nat.mod_eq_of_lt (by omega)] at h
    cases hg : geometry alphabet.length with
    | none => simp [geoResponse, hg] at h
    | some g =>
      obtain ⟨k, h1, h7, hlen, rfl⟩ := geometry_eq_some_iff.mp hg
      cases hok : alphabetOk alphabet with
      | false => simp [geoResponse, hg, hok] at h
      | true =>
        have hB := wordGeometry_B_le h1
        have hC := wordGeometry_C_le h1
        obtain ⟨hk, hc⟩ := packGeometry_fields (g := wordGeometry k) (show k < 16 by omega) (by omega) (by omega)
        simp only [geoResponse, hg, hok, if_true, Except.ok.injEq] at h
        subst h
        exact accepted_of_fields h1 h7 hlen hok rfl hk hc

/-! ### Reading from a finite source -/

/-- A reader between commands, with no fault recorded, on a finite source none of whose accesses fails. -/
structure ReaderReady (s : State) : Prop where
  fault : s.br.fault = .none
  bitsLeft : s.br.bitsLeft.toNat ≤ 7
  finite : s.env.source.endless = false
  position : s.env.source.sp ≤ s.env.source.octets.length
  ioFaults : s.env.ioFaults = false

/-- The bits the reader has still to deliver of a finite source (41_bit_reader.md R135). -/
def coming (s : State) : List Bool := s.br.unconsumed ++ bitsOf (s.env.source.octets.drop s.env.source.sp)

theorem coming_length (s : State) :
    (coming s).length = s.br.bitsLeft.toNat + 8 * (s.env.source.octets.length - s.env.source.sp) := by
  simp [coming]

theorem ofNat_six_toNat {n : Nat} (h : n ≤ 32) : (BitVec.ofNat 6 n).toNat = n := by
  rw [BitVec.toNat_ofNat]; omega

section
variable {s : State} {n : Nat} (hs : ReaderReady s) (h1 : 1 ≤ n) (h32 : n ≤ 32)
include hs

theorem ReaderReady.passes (m : Nat) : passes s.env.ioFaults s.env.srcDraws m :=
  passes_of_ioFaults_false hs.ioFaults

theorem ReaderReady.canGive_iff {m : Nat} :
    s.env.source.canGive m ↔ s.env.source.sp + m ≤ s.env.source.octets.length := by
  simp [Source.canGive, hs.finite]

/-- The bits to come, cut after the next m octets. -/
theorem ReaderReady.coming_eq (m : Nat) :
    coming s = (s.br.unconsumed ++ bitsOf (upcoming m s.env.source)) ++
      bitsOf (s.env.source.octets.drop (s.env.source.sp + m)) := by
  rw [coming, upcoming_eq_take_drop _ _ hs.finite, List.append_assoc, ← bitsOf_append, ← List.drop_drop,
    List.take_append_drop]

/-- The source can give all octets a read takes whose bits are all to come. -/
theorem ReaderReady.canGive_fetchCount (hn : n ≤ (coming s).length) :
    s.env.source.canGive (fetchCount n s.br.bitsLeft.toNat) := by
  have hpos := hs.position
  rw [coming_length] at hn
  rw [hs.canGive_iff, fetchCount]
  split <;> omega

include h1 h32

theorem ReaderReady.exec_rdu : exec (.rdu (BitVec.ofNat 6 n)) s = .next (readBits n s) := by
  have hn := ofNat_six_toNat h32
  simpa only [hn] using exec_rdu_run (n := BitVec.ofNat 6 n) hs.fault (by rwa [hn]) (by rwa [hn])

/-- A read whose bits are all to come delivers them, and leaves the others to come. -/
theorem issue_rdu_ok (hn : n ≤ (coming s).length) :
    ∃ v t, issue (.rdu (BitVec.ofNat 6 n)) s = (some ⟨.ok, v⟩, t) ∧ ReaderReady t ∧
      v.toNat = natOfBits ((coming s).take n) ∧ coming t = (coming s).drop n := by
  have hc := hs.canGive_fetchCount hn
  have hexec := hs.exec_rdu h1 h32
  obtain ⟨v, hresp⟩ := (readBits_answers_ok_iff (canGive_mono hc (Nat.zero_le _))).mpr ⟨hc, hs.passes _⟩
  have hread := exec_rdu_ok (canGive_mono hc (Nat.zero_le _)) hexec hresp rfl
  rw [ofNat_six_toNat h32] at hread
  obtain ⟨hoctets, hendless, hsp⟩ := sourceAfter_frame (fetchCount n s.br.bitsLeft.toNat) s.env.source
  have hready : ReaderReady (readBits n s) := by
    refine ⟨hread.fault, readBits_bitsLeft s h1 hs.bitsLeft, ?_, ?_, hread.ioFaults.trans hs.ioFaults⟩
    · rw [hread.source, hendless, hs.finite]
    · rw [hread.source, hoctets, hsp hc]
      exact hs.canGive_iff.mp hc
  have hsplit := hs.coming_eq (fetchCount n s.br.bitsLeft.toNat)
  have hfetched : n ≤ (s.br.unconsumed ++ bitsOf (upcoming (fetchCount n s.br.bitsLeft.toNat) s.env.source)).length := by
    have := le_fetched n s.br.bitsLeft.toNat
    rw [List.length_append, unconsumed_length, bitsOf_length, upcoming_length hc]; omega
  refine ⟨v, readBits n s, issue_of_exec hexec hresp, hready, ?_, ?_⟩
  · rw [hsplit, List.take_append_of_le_length hfetched]
    exact hread.data
  · rw [hsplit, List.drop_append_of_le_length hfetched, coming, hread.unconsumed, hread.source, hoctets, hsp hc]

/-- A read with no bits to come is answered `EndOfStream`. -/
theorem issue_rdu_end (hn : coming s = []) :
    ∃ t, issue (.rdu (BitVec.ofNat 6 n)) s = (some ⟨.endOfStream, 0⟩, t) := by
  have hlen := congrArg List.length hn
  rw [coming_length, List.length_nil] at hlen
  have hend : ¬ s.env.source.canGive 1 := by rw [hs.canGive_iff]; omega
  have hexec := hs.exec_rdu h1 h32
  rw [readBits_endOfStream h1 (by omega) hend (hs.passes 1)] at hexec
  exact ⟨_, issue_of_exec hexec (respond_responses ..)⟩

end

/-! ### Characters and their digits -/

/-- The characters of the values. -/
def charsOf (cfg : CodecConfig) (vs : List Nat) : List Nat := vs.map fun v => cfg.alphabet.getD v 0

/-- The digits of values of k bits each. -/
def valueBits (k : Nat) (vs : List Nat) : List Bool := joinBits (vs.map fun v => (k, v))

@[simp] theorem valueBits_nil (k : Nat) : valueBits k [] = [] := rfl

theorem valueBits_cons (k v : Nat) (vs : List Nat) : valueBits k (v :: vs) = natBits k v ++ valueBits k vs := rfl

theorem valueBits_concat (k v : Nat) (vs : List Nat) : valueBits k (vs ++ [v]) = valueBits k vs ++ natBits k v := by
  simp [valueBits, joinBits_append]

theorem valueBits_length (k : Nat) (vs : List Nat) : (valueBits k vs).length = k * vs.length := by
  simp [valueBits, joinBits_length, Nat.mul_comm]

theorem charsOf_concat (cfg : CodecConfig) (v : Nat) (vs : List Nat) :
    charsOf cfg (vs ++ [v]) = charsOf cfg vs ++ [cfg.alphabet.getD v 0] := by
  simp [charsOf]

theorem natBits_zero (n : Nat) : natBits n 0 = List.replicate n false := by
  simp [natBits]

/-- The first n bits of a string, as a number, have these bits as digits. -/
theorem natBits_natOfBits_take {n : Nat} {bits : List Bool} (h : n ≤ bits.length) :
    natBits n (natOfBits (bits.take n)) = bits.take n := by
  simpa only [List.length_take, Nat.min_eq_left h] using natBits_natOfBits (bits.take n)

/-- A number shifted left has zeros below its digits. -/
theorem natBits_shiftLeft (a b v : Nat) : natBits (a + b) (v <<< b) = natBits a v ++ List.replicate b false := by
  rw [natBits_add, Nat.shiftLeft_shiftRight, ← natBits_zero b]
  congr 1
  exact natBits_congr fun j hj => by simp [Nat.not_le.mpr hj]

/-- The first a bits and the b bits after them, joined, are the first a + b bits (R193). -/
theorem natOfBits_take_add {a b : Nat} {bits : List Bool} (h : a + b ≤ bits.length) :
    natOfBits (bits.take a) <<< b ||| natOfBits ((bits.drop a).take b) = natOfBits (bits.take (a + b)) := by
  have hlow : ((bits.drop a).take b).length = b := by rw [List.length_take, List.length_drop]; omega
  rw [← Nat.shiftLeft_add_eq_or_of_lt (natOfBits_take_lt ..), Nat.shiftLeft_eq, List.take_add, natOfBits_append, hlow]

/-! ### The encode loop (R193) -/

/-- How many pads fill the word that n characters begin, if padding is enabled. -/
def padCount (cfg : CodecConfig) (n : Nat) : Nat := if cfg.pads then (cfg.C - n % cfg.C) % cfg.C else 0

/-- The pads after the n-th character (from 0) fill the word that n + 1 characters begin. -/
theorem padsAfter_eq {cfg : CodecConfig} {n : Nat} (hC : n % cfg.C + 1 < cfg.C) :
    padsAfter cfg (n % cfg.C) = List.replicate (padCount cfg (n + 1)) padChar := by
  have hplace : (n + 1) % cfg.C = n % cfg.C + 1 := by rw [← Nat.mod_add_mod, Nat.mod_eq_of_lt hC]
  have hfew : (cfg.C - (n % cfg.C + 1)) % cfg.C = cfg.C - (n % cfg.C + 1) := Nat.mod_eq_of_lt (by omega)
  rw [padsAfter, padCount, hplace, hfew, Nat.sub_sub]
  split <;> rfl

/-- An encode of the octets S that is still running, and has emitted the characters of the values vs. -/
structure Encoding (cfg : CodecConfig) (S : List Octet) (vs : List Nat) (r : CodecRun) : Prop where
  running : r.ending = .running
  undrawn : r.charDraws = []
  out : r.out = charsOf cfg vs
  values : ∀ v ∈ vs, v < 2 ^ cfg.k
  ready : ReaderReady r.block
  bits : valueBits cfg.k vs ++ coming r.block = bitsOf S

/-- An encode of the octets S that has ended: the digits of the values are the bits of S, but for zeros that fill the last. -/
structure Encoded (cfg : CodecConfig) (S : List Octet) (vs : List Nat) (r : CodecRun) : Prop where
  clean : r.ending = .clean
  out : r.out = charsOf cfg vs ++ List.replicate (padCount cfg vs.length) padChar
  values : ∀ v ∈ vs, v < 2 ^ cfg.k
  bits : ∃ fill < cfg.k, valueBits cfg.k vs = bitsOf S ++ List.replicate fill false

theorem Encoded.not_running {cfg : CodecConfig} {S : List Octet} {vs : List Nat} {r : CodecRun} (h : Encoded cfg S vs r) :
    r.ending ≠ .running := by rw [h.clean]; decide

theorem foldl_encodeChar_of_ended {cfg : CodecConfig} {r : CodecRun} (h : r.ending ≠ .running) (is : List Nat) :
    is.foldl (encodeChar cfg) r = r := by
  induction is with
  | nil => rfl
  | cons i is ih => rw [List.foldl_cons, encodeChar_of_ended h, ih]

theorem encodeWords_of_ended {cfg : CodecConfig} {r : CodecRun} (h : r.ending ≠ .running) (words : Nat) :
    encodeWords cfg words r = r := by
  induction words with
  | zero => rfl
  | succ words ih => rw [encodeWords, foldl_encodeChar_of_ended h, ih]

section
variable {cfg : CodecConfig} {S : List Octet} {vs : List Nat} {r : CodecRun} (h : Encoding cfg S vs r)
include h

theorem Encoding.bits_length : cfg.k * vs.length + (coming r.block).length = 8 * S.length := by
  rw [← valueBits_length, ← List.length_append, h.bits, bitsOf_length]

/-- A character emitted for the next k bits. -/
theorem Encoding.emitChar {t : State} (ht : ReaderReady t) (hk : cfg.k ≤ (coming r.block).length)
    (hrest : coming t = (coming r.block).drop cfg.k) :
    Encoding cfg S (vs ++ [natOfBits ((coming r.block).take cfg.k)])
      (r.emitChar cfg (natOfBits ((coming r.block).take cfg.k)) t) := by
  rw [CodecRun.emitChar, CodecRun.emit_of_no_draws (by exact h.undrawn)]
  refine ⟨h.running, h.undrawn, ?_, ?_, ht, ?_⟩
  · rw [charsOf_concat, ← h.out]
  · simpa [or_imp, forall_and] using ⟨h.values, natOfBits_take_lt ..⟩
  · rw [valueBits_concat, natBits_natOfBits_take hk, hrest, List.append_assoc, List.take_append_drop, h.bits]

/-- The end of the octets where a word begins: no character is cut short. -/
theorem Encoding.ends {t : State} (hc : coming r.block = []) (hk : 0 < cfg.k) (hn : vs.length % cfg.C = 0) :
    Encoded cfg S vs { r with block := t, ending := .clean } := by
  refine ⟨rfl, ?_, h.values, 0, hk, ?_⟩
  · simp [h.out, padCount, hn]
  · simpa [hc] using h.bits

/-- The end of the octets within a character: zeros fill it, and pads the word. -/
theorem Encoding.endsFilled {t : State} {fill : Nat} (hlt : 0 < (coming r.block).length)
    (hk : (coming r.block).length + fill = cfg.k) (hC : vs.length % cfg.C + 1 < cfg.C) :
    Encoded cfg S (vs ++ [natOfBits (coming r.block) <<< fill])
      ((r.emitChar cfg (natOfBits (coming r.block) <<< fill) t).emitAll (padsAfter cfg (vs.length % cfg.C))).finish := by
  rw [CodecRun.emitChar, CodecRun.emit_of_no_draws (by exact h.undrawn),
    CodecRun.emitAll_of_running (by exact h.undrawn) (by exact h.running), CodecRun.finish_of_running (by exact h.running)]
  refine ⟨rfl, ?_, ?_, fill, by omega, ?_⟩
  · rw [List.length_append, List.length_singleton, ← padsAfter_eq hC, charsOf_concat, ← h.out]
  · have hv : natOfBits (coming r.block) <<< fill < 2 ^ cfg.k := by
      rw [← hk, pow_add, Nat.shiftLeft_eq]
      exact Nat.mul_lt_mul_of_pos_right (natOfBits_lt _) (Nat.two_pow_pos _)
    simpa [or_imp, forall_and] using ⟨h.values, hv⟩
  · rw [valueBits_concat, ← hk, natBits_shiftLeft, natBits_natOfBits, hk, ← List.append_assoc, h.bits]

end

section
variable {cfg : CodecConfig} (hcfg : cfg.Accepted)
include hcfg

theorem CodecConfig.Accepted.eight_dvd_iff {i : Nat} : 8 ∣ cfg.k * i ↔ cfg.C ∣ i := by
  rw [hcfg.C]; exact eight_dvd_mul_iff hcfg.k_pos

theorem CodecConfig.Accepted.C_pos : 0 < cfg.C := by
  rw [hcfg.C]; exact wordGeometry_C_pos hcfg.k_pos

/-- Where the n-th character stands in its octet is settled by its place in the word. -/
theorem CodecConfig.Accepted.mul_mod_eight (n : Nat) : cfg.k * (n % cfg.C) % 8 = cfg.k * n % 8 := by
  obtain ⟨q, hq⟩ := hcfg.eight_dvd_iff.mpr (dvd_refl cfg.C)
  conv_rhs => rw [← Nat.mod_add_div n cfg.C, Nat.mul_add, ← Nat.mul_assoc, hq, Nat.mul_assoc, Nat.add_mul_mod_self_left]

/-- A word has at least an octet's bits. -/
theorem CodecConfig.Accepted.eight_le_word : 8 ≤ cfg.k * cfg.C :=
  Nat.le_of_dvd (Nat.mul_pos hcfg.k_pos hcfg.C_pos) (hcfg.eight_dvd_iff.mpr (dvd_refl _))

/-- A character that spans two octets is not the last of its word, which ends an octet. -/
theorem CodecConfig.Accepted.split_lt {i : Nat} (hi : i < cfg.C) (h : ¬ cfg.k ≤ 8 - cfg.k * i % 8) : i + 1 < cfg.C := by
  refine Nat.lt_of_le_of_ne hi fun hlast => ?_
  have hk7 := hcfg.k_le
  have hword := Nat.mod_eq_zero_of_dvd (hcfg.eight_dvd_iff.mpr (dvd_refl cfg.C))
  rw [← hlast, Nat.mul_succ] at hword
  omega

theorem CodecConfig.Accepted.eq_zero_of_dvd {i : Nat} (hi : i < cfg.C) (h : cfg.k * i % 8 = 0) : i = 0 :=
  Nat.eq_zero_of_dvd_of_lt (hcfg.eight_dvd_iff.mp (Nat.dvd_of_mod_eq_zero h)) hi

section
variable {S : List Octet} {vs : List Nat} {r : CodecRun} (h : Encoding cfg S vs r)
include h

/-- The bits still to come begin in the octet in which the next character begins. -/
theorem Encoding.coming_mod_eight : (cfg.k * (vs.length % cfg.C) % 8 + (coming r.block).length) % 8 = 0 := by
  have := h.bits_length
  rw [hcfg.mul_mod_eight]
  omega

/-- A pass whose character lies in one octet: it is emitted, or the octets have ended with the word before it. -/
theorem Encoding.encodeChar_whole (hk : cfg.k ≤ 8 - cfg.k * (vs.length % cfg.C) % 8) :
    (∃ ws, Encoded cfg S ws (encodeChar cfg r (vs.length % cfg.C))) ∨
      ∃ v, Encoding cfg S (vs ++ [v]) (encodeChar cfg r (vs.length % cfg.C)) := by
  have hcoming := h.coming_mod_eight hcfg
  have hk7 := hcfg.k_le
  have hk0 := hcfg.k_pos
  by_cases hfull : cfg.k ≤ (coming r.block).length
  · obtain ⟨v, t, hread, ht, hv, hrest⟩ := issue_rdu_ok h.ready hk0 (by omega) hfull
    rw [encodeChar_whole_ok h.running hk hread, hv]
    exact .inr ⟨_, h.emitChar ht hfull hrest⟩
  · have hnone : coming r.block = [] := List.length_eq_zero_iff.mp (by omega)
    have hn : vs.length % cfg.C = 0 := hcfg.eq_zero_of_dvd (Nat.mod_lt _ hcfg.C_pos) (by omega)
    obtain ⟨t, hread⟩ := issue_rdu_end h.ready hk0 (by omega) hnone
    rw [encodeChar_whole_end h.running hk hread, if_pos hn]
    exact .inl ⟨_, h.ends hnone hk0 hn⟩

/-- A pass whose character spans two octets: its high bits are always to come; the low bits follow, or zeros fill them. -/
theorem Encoding.encodeChar_split (hk : ¬ cfg.k ≤ 8 - cfg.k * (vs.length % cfg.C) % 8) :
    (∃ ws, Encoded cfg S ws (encodeChar cfg r (vs.length % cfg.C))) ∨
      ∃ v, Encoding cfg S (vs ++ [v]) (encodeChar cfg r (vs.length % cfg.C)) := by
  have hcoming := h.coming_mod_eight hcfg
  have hk7 := hcfg.k_le
  obtain ⟨v, t, hhigh, ht, hv, hrest⟩ :=
    issue_rdu_ok (n := 8 - cfg.k * (vs.length % cfg.C) % 8) h.ready (by omega) (by omega) (by omega)
  have hrestLength := congrArg List.length hrest
  rw [List.length_drop] at hrestLength
  by_cases hfull : cfg.k ≤ (coming r.block).length
  · obtain ⟨w, u, hlow, hu, hw, hrest'⟩ :=
      issue_rdu_ok (n := cfg.k - (8 - cfg.k * (vs.length % cfg.C) % 8)) ht (by omega) (by omega) (by omega)
    rw [encodeChar_split_ok h.running hk hhigh hlow, hv, hw, hrest, natOfBits_take_add (by omega),
      Nat.add_sub_cancel' (by omega)]
    refine .inr ⟨_, h.emitChar hu hfull ?_⟩
    rw [hrest', hrest, List.drop_drop, Nat.add_sub_cancel' (by omega)]
  · obtain ⟨u, hlow⟩ := issue_rdu_end (n := cfg.k - (8 - cfg.k * (vs.length % cfg.C) % 8)) ht (by omega) (by omega)
      (List.length_eq_zero_iff.mp (by omega))
    rw [encodeChar_split_end h.running hk hhigh hlow, hv, List.take_of_length_le (by omega)]
    exact .inl ⟨_, h.endsFilled (by omega) (by omega) (hcfg.split_lt (Nat.mod_lt _ hcfg.C_pos) hk)⟩

/-- One pass of the loop: the next character is emitted, or the encode has ended (R193, R194). -/
theorem Encoding.encodeChar :
    (∃ ws, Encoded cfg S ws (encodeChar cfg r (vs.length % cfg.C))) ∨
      ∃ v, Encoding cfg S (vs ++ [v]) (encodeChar cfg r (vs.length % cfg.C)) := by
  by_cases hk : cfg.k ≤ 8 - cfg.k * (vs.length % cfg.C) % 8
  · exact h.encodeChar_whole hcfg hk
  · exact h.encodeChar_split hcfg hk

end

/-- The first j passes of a word: j characters are emitted, or the encode has ended. -/
theorem Encoding.passes {S : List Octet} {vs : List Nat} {r : CodecRun} (h : Encoding cfg S vs r)
    (hn : vs.length % cfg.C = 0) {j : Nat} (hj : j ≤ cfg.C) :
    (∃ ws, Encoded cfg S ws ((List.range j).foldl (Machine.encodeChar cfg) r)) ∨
      ∃ ws, ws.length = vs.length + j ∧ Encoding cfg S ws ((List.range j).foldl (Machine.encodeChar cfg) r) := by
  induction j with
  | zero => exact .inr ⟨vs, rfl, h⟩
  | succ j ih =>
    rw [List.range_succ, List.foldl_append, List.foldl_cons, List.foldl_nil]
    rcases ih (Nat.le_of_succ_le hj) with ⟨ws, he⟩ | ⟨ws, hlen, he⟩
    · rw [encodeChar_of_ended he.not_running]
      exact .inl ⟨ws, he⟩
    · have hplace : ws.length % cfg.C = j := by rw [hlen, ← Nat.mod_add_mod, hn, Nat.zero_add, Nat.mod_eq_of_lt hj]
      have hpass := he.encodeChar hcfg
      rw [hplace] at hpass
      refine hpass.imp_right fun ⟨v, hv⟩ => ⟨ws ++ [v], ?_, hv⟩
      rw [List.length_append, hlen, List.length_singleton, Nat.add_assoc]

/-- Each word takes at least an octet, so that enough words reach the end (R193). -/
theorem Encoding.words {S : List Octet} {vs : List Nat} {r : CodecRun} (h : Encoding cfg S vs r)
    (hn : vs.length % cfg.C = 0) {words : Nat} (hw : (coming r.block).length < 8 * words) :
    ∃ ws, Encoded cfg S ws (encodeWords cfg words r) := by
  induction words generalizing vs r with
  | zero => omega
  | succ words ih =>
    rw [encodeWords]
    rcases h.passes hcfg hn (Nat.le_refl _) with ⟨ws, he⟩ | ⟨ws, hlen, he⟩
    · rw [encodeWords_of_ended he.not_running]
      exact ⟨ws, he⟩
    · refine ih he (by rw [hlen, Nat.add_mod_right, hn]) ?_
      have hword := hcfg.eight_le_word
      have hbefore := h.bits_length
      have hafter := he.bits_length
      rw [hlen, Nat.mul_add] at hafter
      omega

theorem encodeOctets_encoded (S : List Octet) {s : State} (hio : s.env.ioFaults = false) :
    ∃ vs, Encoded cfg S vs (encodeOctets cfg S [] s) := by
  have hstart : Encoding cfg S [] (encodeStart S [] s) := by
    refine ⟨rfl, rfl, rfl, by simp, ⟨rfl, Nat.zero_le 7, rfl, Nat.zero_le _, hio⟩, ?_⟩
    simp [coming, BitReader.unconsumed, BitReader.reset]
  refine hstart.words hcfg (Nat.zero_mod _) ?_
  have hbits := hstart.bits_length
  rw [List.length_nil, Nat.mul_zero, Nat.zero_add] at hbits
  rw [hbits]
  exact Nat.mul_lt_mul_of_pos_left (Nat.lt_succ_self _) (by decide)

end

/-! ### The decode loop (R195 to R197) -/

/-- A decode that is still running and has written the given bits. -/
structure Decoding (bits : List Bool) (r : CodecRun) : Prop where
  running : r.ending = .running
  undrawn : r.charDraws = []
  ready : r.block.bw.Ready
  ioFaults : r.block.env.ioFaults = false
  bits : bitsOf r.block.env.sink ++ r.block.bw.residue = bits

theorem CodecRun.charAccess_of_no_draws {r : CodecRun} (h : r.charDraws = []) (go : CodecRun → CodecRun) :
    r.charAccess go = go r := by
  rw [CodecRun.charAccess_pass _ _ (by rw [h]; rfl), h, List.tail_nil, ← h]

/-- A write that no emission fails is answered `OK`. -/
theorem issue_wru_ok {k v : Nat} {s : State} (hs : s.bw.Ready) (hio : s.env.ioFaults = false) (h1 : 1 ≤ k) (h8 : k ≤ 8)
    (hv : v < 2 ^ k) :
    ∃ t, issue (.wru (BitVec.ofNat 4 k) (BitVec.ofNat 8 v)) s = (some ⟨.ok, 0⟩, t) ∧ WriteOk k v s t := by
  have hk : (BitVec.ofNat 4 k).toNat = k := by rw [BitVec.toNat_ofNat]; omega
  have hv' : (BitVec.ofNat 8 v).toNat = v := by
    rw [BitVec.toNat_ofNat, Nat.mod_eq_of_lt (hv.trans_le (Nat.pow_le_pow_right (by decide) h8))]
  have hexec := exec_wru_run (n := BitVec.ofNat 4 k) (v := BitVec.ofNat 8 v) hs.fault (by rwa [hk]) (by rwa [hk])
    (by rwa [hk, hv'])
  rw [hk, hv'] at hexec
  have hok := writeBits_ok hs h8 hv (passes_of_ioFaults_false hio)
  exact ⟨_, issue_of_exec hexec hok.responses, hok⟩

/-- PADs to the end of the word, and no more characters, end the decode cleanly (R195). -/
theorem padRun_replicate {r : CodecRun} (hd : r.charDraws = []) (count : Nat) :
    padRun count (List.replicate count padChar) r = r.finish := by
  induction count with
  | zero => rfl
  | succ count ih =>
    rw [List.replicate_succ, padRun, CodecRun.charAccess_of_no_draws hd]
    simpa using ih

/-- The place in the word that follows the n-th character's. -/
theorem next_place {n C : Nat} (hC : 0 < C) : (if n % C + 1 = C then 0 else n % C + 1) = (n + 1) % C := by
  have hlt := Nat.mod_lt n hC
  rw [← Nat.mod_add_mod n C 1]
  split
  · rename_i hlast
    rw [hlast, Nat.mod_self]
  · exact (Nat.mod_eq_of_lt (by omega)).symm

section
variable {cfg : CodecConfig} (hcfg : cfg.Accepted) {bits : List Bool} {r : CodecRun} (h : Decoding bits r)
include hcfg h

/-- A character of the alphabet is written as its value's digits, and the decode goes on. -/
theorem Decoding.character {v : Nat} (hv : v < 2 ^ cfg.k) :
    ∃ r', Decoding (bits ++ natBits cfg.k v) r' ∧
      ∀ cs i, decodeFrom cfg (cfg.alphabet.getD v 0 :: cs) i r =
        decodeFrom cfg cs (if i + 1 = cfg.C then 0 else i + 1) r' := by
  have hk7 := hcfg.k_le
  obtain ⟨t, hissue, hok⟩ := issue_wru_ok h.ready h.ioFaults hcfg.k_pos (by omega) hv
  refine ⟨{ r with block := t }, ⟨h.running, h.undrawn, hok.ready, hok.ioFaults.trans h.ioFaults, ?_⟩, fun cs i => ?_⟩
  · exact hok.appends.trans (by rw [h.bits])
  · rw [decodeFrom_cons, CodecRun.charAccess_of_no_draws h.undrawn, decodeCharacter, if_neg (hcfg.ne_pad v hv)]
    simp only [decodeValue, hcfg.lookup v hv, hissue]

theorem Decoding.characters {vs : List Nat} (hvs : ∀ v ∈ vs, v < 2 ^ cfg.k) :
    ∃ r', Decoding (bits ++ valueBits cfg.k vs) r' ∧
      ∀ cs n, decodeFrom cfg (charsOf cfg vs ++ cs) (n % cfg.C) r = decodeFrom cfg cs ((n + vs.length) % cfg.C) r' := by
  induction vs generalizing bits r with
  | nil => exact ⟨r, by simpa using h, fun _ _ => rfl⟩
  | cons v vs ih =>
    obtain ⟨hv, hvs⟩ := List.forall_mem_cons.mp hvs
    obtain ⟨r1, h1, hfirst⟩ := h.character hcfg hv
    obtain ⟨r', h', hrest⟩ := ih h1 hvs
    refine ⟨r', by rwa [valueBits_cons, ← List.append_assoc], fun cs n => ?_⟩
    rw [charsOf, List.map_cons, List.cons_append, hfirst, next_place hcfg.C_pos, ← charsOf, hrest, List.length_cons,
      Nat.add_assoc, Nat.add_comm 1]

/-- Where the characters end at a legal stop, with the pads of their word where padding is enabled, the decode ends
cleanly. -/
theorem Decoding.ends {n : Nat} (hstop : legalStop cfg.k (n % cfg.C) = true) :
    decodeFrom cfg (List.replicate (padCount cfg n) padChar) (n % cfg.C) r = { r with ending := .clean } := by
  rw [← CodecRun.finish_of_running h.running]
  by_cases hpads : cfg.pads = true ∧ n % cfg.C ≠ 0
  · obtain ⟨hp, hn⟩ := hpads
    have hC := Nat.mod_lt n hcfg.C_pos
    have hcount : padCount cfg n = cfg.C - n % cfg.C - 1 + 1 := by
      rw [padCount, if_pos hp, Nat.mod_eq_of_lt (by omega)]
      omega
    rw [hcount, List.replicate_succ, decodeFrom_cons, CodecRun.charAccess_of_no_draws h.undrawn, decodeCharacter,
      if_pos rfl, ← padRun_replicate h.undrawn (cfg.C - n % cfg.C - 1)]
    simp [decodePad, hp, hn, hstop]
  · have hcount : padCount cfg n = 0 := by
      rw [padCount]
      split
      · rename_i hp
        rw [not_and_not_right.mp hpads hp, Nat.sub_zero, Nat.mod_self]
      · rfl
    rw [hcount, List.replicate_zero, decodeFrom, CodecRun.charAccess_of_no_draws h.undrawn, decodeEnd]
    by_cases hn : n % cfg.C = 0
    · rw [if_pos hn]
    · have hp : cfg.pads = false := by simpa [hn] using hpads
      rw [if_neg hn, if_neg (by simp [hstop]), if_pos hp]

end

/-! ### The round trip (R202) -/

/-- Values that spell octets, but for zeros that fill the last, stop where a decode may stop (R196). -/
theorem legalStop_of_filled {cfg : CodecConfig} (hcfg : cfg.Accepted) {S : List Octet} {vs : List Nat} {fill : Nat}
    (hfill : fill < cfg.k) (h : valueBits cfg.k vs = bitsOf S ++ List.replicate fill false) :
    legalStop cfg.k (vs.length % cfg.C) = true := by
  have hk7 := hcfg.k_le
  have hlen := congrArg List.length h
  rw [valueBits_length, List.length_append, bitsOf_length, List.length_replicate] at hlen
  have hplace := hcfg.mul_mod_eight vs.length
  rw [legalStop, Nat.mul_comm, hplace]
  simp only [Bool.or_eq_true, decide_eq_true_eq]
  omega

/-- Octets and fewer than eight further bits are settled by the bits they make together. -/
theorem octets_unique {S T : List Octet} {a b : List Bool} (h : bitsOf S ++ a = bitsOf T ++ b) (ha : a.length ≤ 7)
    (hb : b.length ≤ 7) : S = T := by
  obtain ⟨-, -, hS, -⟩ := octets_and_rest h ha
  obtain ⟨-, -, hT, -⟩ := octets_and_rest (rfl : bitsOf T ++ b = _) hb
  exact bitsOf_injective (hS.trans hT.symm)

theorem decodeChars_encoded {cfg : CodecConfig} (hcfg : cfg.Accepted) {S : List Octet} {vs : List Nat} {e : CodecRun}
    (he : Encoded cfg S vs e) {s : State} (hio : s.env.ioFaults = false) :
    (decodeChars cfg e.out [] s).ending = .clean ∧ (decodeChars cfg e.out [] s).block.env.sink = S := by
  obtain ⟨fill, hfill, hbits⟩ := he.bits
  have hstart : Decoding [] (decodeStart s) := ⟨rfl, rfl, BitWriter.reset_ready, hio, rfl⟩
  obtain ⟨r, hr, hchars⟩ := hstart.characters hcfg he.values
  have hrun : decodeChars cfg e.out [] s = { r with ending := .clean } := by
    have hloop := hchars (List.replicate (padCount cfg vs.length) padChar) 0
    rw [Nat.zero_mod, Nat.zero_add, ← he.out, hr.ends hcfg (legalStop_of_filled hcfg hfill hbits)] at hloop
    exact hloop
  rw [hrun]
  have hk7 := hcfg.k_le
  have hused := hr.ready.bitsUsed
  refine ⟨rfl, octets_unique (hr.bits.trans hbits) ?_ ?_⟩
  · rw [residue_length (by omega)]; exact hused
  · rw [List.length_replicate]; omega

/-- Settles O49: with no access failing, the encode spells the octets' bits and the decode writes them back. -/
theorem decodingUndoesEncoding : Obligations.DecodingUndoesEncoding := by
  intro alphabet pads cfg octets draws1 draws2 s s1 s2 hio1 hio2 hd1 hd2 hcfg encoded decoded
  have haccepted := construct_accepted hcfg
  obtain ⟨hencode, hdecode, -⟩ := failedCharacterAccessesKeepTheOutput
  obtain ⟨-, -, -, hpass1⟩ := hencode cfg octets draws1 s1
  obtain ⟨hout, hending⟩ := hpass1 (passes_of_no_draw_fails hd1 _)
  obtain ⟨-, -, -, hpass2⟩ := hdecode cfg encoded.out draws2 s2
  obtain ⟨hsink, hending'⟩ := hpass2 (passes_of_no_draw_fails hd2 _)
  obtain ⟨vs, he⟩ := encodeOctets_encoded haccepted octets hio1
  obtain ⟨hclean, hoctets⟩ := decodeChars_encoded haccepted he hio2
  rw [← hout] at hclean hoctets
  exact ⟨hending.trans he.clean, hending'.trans hclean, hsink.trans hoctets⟩

end Sys2Proof.Machine
end

section
/-! PROOFS. Failures (60_exceptions.md): every step that keeps the protocol answers a next state, the fault gate of each unit, and
the status `Io`, which needs `IO_FAULTS`. -/

namespace Sys2Proof.Machine

/-! ### What stops the machine (R230, 70_reset_and_hazards.md R275, R281) -/

/-- A presented word is answered, whether it spells a command or not (R230, 30_encoding.md R84). -/
theorem runCommand_next (w : CmdWord) (s : State) : ∃ t, runCommand w s = .next t := by
  unfold runCommand
  split
  case h_1 i _ =>
    obtain ⟨t, ht, -⟩ := exec_commandAnswer i s
    exact ⟨t, ht⟩
  case h_2 => exact ⟨_, rfl⟩

/-- Settles O13: by the host's next act; a command is answered, and the two violations are the other disjuncts. -/
theorem onlyProtocolViolationsStopTheMachine : Obligations.OnlyProtocolViolationsStopTheMachine := by
  intro s
  unfold step
  split
  case h_1 => exact .inl ⟨_, rfl⟩
  case h_2 w rest _ => exact .inl (runCommand_next w { s with port := rest })
  case h_3 => exact .inl ⟨_, rfl⟩
  case h_4 => exact .inl ⟨_, rfl⟩
  case h_5 => exact .inl ⟨_, rfl⟩
  case h_6 w rest hp => exact .inr (.inl ⟨w, rest, hp⟩)
  case h_7 w1 w2 rest hp => exact .inr (.inr ⟨w1, w2, rest, hp⟩)

/-! ### The fault gate (R238) -/

/-- A legal write of a faulted writer ends at check 3 of R234. -/
theorem exec_wru_faulted {n : BitVec 4} {v : BitVec 8} {s : State} (hf : s.bw.fault ≠ .none) (h1 : 1 ≤ n.toNat)
    (h8 : n.toNat ≤ 8) (hv : v.toNat < 2 ^ n.toNat) : exec (.wru n v) s = .next (respond .unitFaulted 0 s) := by
  simp only [exec, execWru]
  rw [wruOperandLegal_iff.mpr ⟨h1, h8, hv⟩, checked_faulted (unitFaulted_bw.mpr hf)]

/-- A writer command does the same update whatever `br.fault` holds, since the writer side is the same. -/
theorem exec_writer_with_brFault {j : Instr} (hj : j = .fin ∨ ∃ m v, j = .wru m v) (f : BrFault) {s t : State}
    (h : exec j s = .next t) : exec j { s with br.fault := f } = .next { t with br.fault := f } := by
  obtain ⟨e, he⟩ := exec_writer_update hj s
  obtain rfl := Host.Outcome.next.inj (h.symm.trans (he s (.refl s)))
  exact he _ ⟨rfl, rfl, rfl, rfl⟩

/-- A reader command does the same update whatever `bw.fault` holds, since the reader side is the same. -/
theorem exec_rdu_with_bwFault (n : BitVec 6) (f : BwFault) {s t : State} (h : exec (.rdu n) s = .next t) :
    exec (.rdu n) { s with bw.fault := f } = .next { t with bw.fault := f } := by
  obtain ⟨e, he⟩ := exec_rdu_update n s
  obtain rfl := Host.Outcome.next.inj (h.symm.trans (he s (.refl s)))
  exact he _ ⟨rfl, rfl, rfl, rfl⟩

/-- Only RDU reads `br.fault`. -/
theorem exec_with_brFault {i : Instr} (hi : ∀ n, i ≠ .rdu n) (f : BrFault) {s t : State} (h : exec i s = .next t) :
    exec i { s with br.fault := f } = .next { t with br.fault := f } := by
  cases i with
  | rdu n => exact absurd rfl (hi n)
  | wru n v => exact exec_writer_with_brFault (.inr ⟨n, v, rfl⟩) f h
  | fin => exact exec_writer_with_brFault (.inl rfl) f h
  | geo N =>
    obtain rfl := Host.Outcome.next.inj (h.symm.trans (exec_geo_eq N s))
    exact exec_geo_eq N _

/-- Only WRU and FIN read `bw.fault`. -/
theorem exec_with_bwFault {i : Instr} (hwru : ∀ n v, i ≠ .wru n v) (hfin : i ≠ .fin) (f : BwFault) {s t : State}
    (h : exec i s = .next t) : exec i { s with bw.fault := f } = .next { t with bw.fault := f } := by
  cases i with
  | rdu n => exact exec_rdu_with_bwFault n f h
  | wru n v => exact absurd rfl (hwru n v)
  | fin => exact absurd rfl hfin
  | geo N =>
    obtain rfl := Host.Outcome.next.inj (h.symm.trans (exec_geo_eq N s))
    exact exec_geo_eq N _

/-- Settles O33: the gate of each unit's commands, the other commands' blindness to it, and that a set fault register stays. -/
theorem faultGate : Obligations.FaultGate :=
  ⟨fun _ _ h1 h32 hf => exec_rdu_faulted hf h1 h32,
    fun _ _ _ h1 h8 hv hf => exec_wru_faulted hf h1 h8 hv,
    fun s => (finChecksTheByteBoundary s).1,
    fun _ f _ _ hi h => exec_with_brFault hi f h,
    fun _ f _ _ hwru hfin h => exec_with_bwFault hwru hfin f h,
    fun _ _ _ h => exec_keeps_faults h⟩

/-! ### The status `Io` (R242) -/

/-- A command is answered `Io` only with `IO_FAULTS` true: a read or a write, since FIN and GEO never give that status. -/
theorem exec_answeredIo {i : Instr} {s t : State} (h : exec i s = .next t) (hio : answeredWith .io s t) :
    s.env.ioFaults = true := by
  obtain ⟨hmem, -⟩ := exec_answeredWith h hio
  cases i with
  | rdu n => exact failedFetchLeavesAnIoFault.2 n s t h hio
  | wru n v => exact failedEmissionPacksNothing.2 n v s t h hio
  | fin => simp [statusesOf] at hmem
  | geo N => simp [statusesOf] at hmem

theorem recordFault_br_fault_io {u : UnitName} {st : Status} {s : State} (hst : st ≠ .io)
    (h : (recordFault u st s).br.fault = .io) : s.br.fault = .io := by
  cases u with
  | br => cases st <;> simp_all [recordFault]
  | bw => rwa [recordFault_br_of_bw] at h
  | geo => rwa [recordFault_geo] at h

theorem recordFault_bw_fault_io {u : UnitName} {st : Status} {s : State} (hst : st ≠ .io)
    (h : (recordFault u st s).bw.fault = .io) : s.bw.fault = .io := by
  cases u with
  | br => rwa [recordFault_bw_of_br] at h
  | bw => cases st <;> simp_all [recordFault]
  | geo => rwa [recordFault_geo] at h

/-- From `s` to `t` nothing failed with `Io`: `IO_FAULTS` is still false, no response given is `Io`, no fault register becomes
`Io`. -/
structure IoFree (s t : State) : Prop where
  ioFaults : t.env.ioFaults = false
  status : ∀ r, t.responses = s.responses ++ [r] → r.status ≠ .io
  br_fault : t.br.fault = .io → s.br.fault = .io
  bw_fault : t.bw.fault = .io → s.bw.fault = .io

/-- A step that answers nothing is free of `Io` if it leaves `IO_FAULTS` and no new `Io` in the fault registers. -/
theorem IoFree.of_silent {s t : State} (hresp : t.responses = s.responses) (hio : t.env.ioFaults = false)
    (hbr : t.br.fault = .io → s.br.fault = .io) (hbw : t.bw.fault = .io → s.bw.fault = .io) : IoFree s t where
  ioFaults := hio
  status r hr := absurd (hresp.symm.trans hr) (by simp)
  br_fault := hbr
  bw_fault := hbw

theorem IoFree.of_port {s t : State} {rest : List HostEvent} (h : IoFree { s with port := rest } t) : IoFree s t := by
  obtain ⟨hio, hstatus, hbr, hbw⟩ := h
  exact ⟨hio, hstatus, hbr, hbw⟩

theorem exec_ioFree {i : Instr} {s t : State} (hio : s.env.ioFaults = false) (h : exec i s = .next t) : IoFree s t := by
  obtain ⟨t', ht, r, hr⟩ := exec_commandAnswer i s
  obtain rfl := Host.Outcome.next.inj (ht.symm.trans h)
  have hst : r.status ≠ .io := fun hst => by
    simpa [hio] using exec_answeredIo h ⟨r.data, by rw [hr.responses, ← hst]⟩
  obtain ⟨-, hkeep, -⟩ := commandsStayInTheirUnit i s _ h
  refine ⟨hkeep.trans hio, fun q hq => ?_, fun hf => ?_, fun hf => ?_⟩
  · have hqr : q = r := by simpa [hr.responses] using hq.symm
    rwa [hqr]
  · exact recordFault_br_fault_io hst (hr.br_fault.symm.trans hf)
  · exact recordFault_bw_fault_io hst (hr.bw_fault.symm.trans hf)

theorem illegalCommand_ioFree {s : State} (hio : s.env.ioFaults = false) : IoFree s (respond .illegalCommand 0 s) where
  ioFaults := hio
  status r hr := by
    obtain rfl : { status := .illegalCommand, data := 0 } = r := by simpa using hr
    decide
  br_fault := id
  bw_fault := id

/-- A step is free of `Io` while `IO_FAULTS` is false: a command by its answer, a reset since it clears both fault registers. -/
theorem step_ioFree {s t : State} (hio : s.env.ioFaults = false) (h : step s = .next t) : IoFree s t := by
  rcases step_cases h with rfl | ⟨w, rest, i, -, -, hx⟩ | ⟨w, rest, -, -, rfl⟩ | ⟨rest, -, rfl⟩ |
    ⟨S, e, rest, -, rfl⟩ | ⟨rest, -, rfl⟩
  · exact .of_silent rfl hio id id
  · exact (exec_ioFree (s := { s with port := rest }) hio hx).of_port
  · exact (illegalCommand_ioFree (s := { s with port := rest }) hio).of_port
  · exact .of_silent rfl hio (fun hf => nomatch hf) (fun hf => nomatch hf)
  · exact .of_silent rfl hio id id
  · exact .of_silent rfl hio id id

/-- Settles O37: `step_ioFree`, its four parts. -/
theorem withoutIoFaultsNothingFails : Obligations.WithoutIoFaultsNothingFails := by
  intro s t hio h
  obtain ⟨hkeep, hstatus, hbr, hbw⟩ := step_ioFree hio h
  exact ⟨hkeep, hstatus, hbr, hbw⟩

end Sys2Proof.Machine
end

section
/-! PROOFS. Reset, the host's bindings and the two refused acts (70_reset_and_hazards.md): the equation of `step` for each event
that is not a command, and from it what the step writes and leaves alone. -/

namespace Sys2Proof.Machine

/-! ### The step of each event that is not a command (R270, R273, R275, R281) -/

section
variable {s : State} {rest : List HostEvent}

theorem step_of_reset (hp : s.port = .reset :: rest) : step s = .next (applyReset { s with port := rest }) := by
  simp [step, hp]

theorem step_of_bindSource {octets : List Octet} {endless : Bool} (hp : s.port = .bindSource octets endless :: rest) :
    step s = .next (bindSource octets endless { s with port := rest }) := by
  simp [step, hp]

theorem step_of_bindSink (hp : s.port = .bindSink :: rest) : step s = .next (bindSink { s with port := rest }) := by
  simp [step, hp]

theorem step_of_resetDuringCommand {w : CmdWord} (hp : s.port = .resetDuringCommand w :: rest) :
    step s = .refused .resetDuringCommand := by
  simp [step, hp]

theorem step_of_secondCommand {w1 w2 : CmdWord} (hp : s.port = .secondCommand w1 w2 :: rest) :
    step s = .refused .secondCommandBeforeResponse := by
  simp [step, hp]

end

/-! ### What they write and leave alone (R271, R272, R273) -/

/-- Settles O9: the step is `applyReset`, whose record update names only the two units. -/
theorem resetWritesTheSixRegistersOnly : Obligations.ResetWritesTheSixRegistersOnly := by
  intro s rest hp
  rw [step_of_reset hp, applyReset, BitReader.reset, BitWriter.reset]

/-- Settles O11: a bound source is read off field by field, a bound sink is one record update. -/
theorem bindingsLeaveTheBlockAlone : Obligations.BindingsLeaveTheBlockAlone := by
  intro s rest
  refine ⟨fun octets endless hp => ⟨_, step_of_bindSource hp, ?_⟩, fun hp => ?_⟩
  · simp
  · rw [step_of_bindSink hp, bindSink]

/-! ### What is refused (R275, R281) -/

/-- Settles O12: the two acts are events of their own, each with its own refusal. -/
theorem protocolViolationsAreRefused : Obligations.ProtocolViolationsAreRefused :=
  fun _ _ => ⟨fun _ => step_of_resetDuringCommand, fun _ _ => step_of_secondCommand⟩

end Sys2Proof.Machine
end
